-- ==== Sys2Proof/Word.lean ====
section
/-! DEFINITION. The plain words of the engine: bytes, codes, command and STATUS words, strings, and the
entries and the store of the dictionary. Values are unsigned and bits are numbered from 0 (R8). -/

namespace Sys2Proof

/-- A byte, 0..255 (R8). -/
abbrev Byte := BitVec 8

/-- A code: the 9-bit domain 0..511 (R8, R12, R75). -/
abbrev Code := BitVec 9

/-- A host command word: 16 bits, whole (R70, R82). -/
abbrev CmdWord := BitVec 16

/-- The STATUS word: 32 bits, read only (R32). -/
abbrev StatusWord := BitVec 32

/-- A string: a finite sequence of bytes, index 0 first (R9). -/
abbrev Str := List Byte

/-- An entry of the dictionary store (R23): a stored string, the reserved entry of code 256, or a slot
no insert has filled. -/
inductive Entry where
  | str (s : Str)
  | reserved
  | empty
  deriving DecidableEq, Repr, Inhabited

/-- The dictionary store D (R23, R50) as plain data: the codes whose entry differs from its reset
contents, rising. `Machine.dictRead` reads it, `Machine.dictWf` is its canonical form. -/
abbrev Dict := List (Code × Entry)

end Sys2Proof
end

