-- ==== Sys2Proof/Syntax.lean ====
section
/-! DEFINITION. The three host commands (one constructor per row of spec/opcode_table.json) and the one
command format, CMD16 (R70). -/

namespace Sys2Proof

/-- The fields of a command word (R70): OP in bits 15:12, RSV in 11:8, DATA in 7:0. -/
structure CmdFields where
  op : BitVec 4
  rsv : BitVec 4
  data : Byte
  deriving DecidableEq, Repr

/-- A host command (R71). Only BYTE has an operand: the unsigned byte DATA (R72). -/
inductive Instr where
  | start
  | byte (b : Byte)
  | endInput
  deriving DecidableEq, Repr

end Sys2Proof
end

