-- ==== Sys2Proof/Decode.lean ====
section
/-! DEFINITION. The decoder of command words (R73), total on every 16-bit word, which names why it
refuses a word (R74); the encoder, from the bit patterns of R71; and the reading of an opcode-table
word. -/

namespace Sys2Proof

/-- Why a word is ILLEGAL: the three groups of R74. The engine does not record which one it was (R180). -/
inductive IllegalWord where
  /-- RSV is not zero. -/
  | reservedBitsSet
  /-- START or END with DATA not zero. -/
  | dataNotZero
  /-- OP 0x0 or 0x4..0xF. -/
  | reservedOp
  deriving DecidableEq, Repr

/-- The fields of a command word (R70). -/
def CmdFields.ofWord (w : CmdWord) : CmdFields :=
  { op := w.extractLsb' 12 4, rsv := w.extractLsb' 8 4, data := w.extractLsb' 0 8 }

/-- The word with the given fields (R70). -/
def CmdFields.toWord (f : CmdFields) : CmdWord :=
  f.op ++ f.rsv ++ f.data

/-- The command the fields stand for, in the order of R73: RSV first, then OP with DATA. -/
def CmdFields.command (f : CmdFields) : Except IllegalWord Instr :=
  if f.rsv ≠ 0 then .error .reservedBitsSet
  else if f.op = 0x1 then
    if f.data = 0 then .ok .start else .error .dataNotZero
  else if f.op = 0x2 then .ok (.byte f.data)
  else if f.op = 0x3 then
    if f.data = 0 then .ok .endInput else .error .dataNotZero
  else .error .reservedOp

/-- R73: decode a command word. -/
def decode (w : CmdWord) : Except IllegalWord Instr :=
  (CmdFields.ofWord w).command

/-- The fields of a command, from the bit patterns of R71. -/
def Instr.fields : Instr → CmdFields
  | .start => { op := 0b0001, rsv := 0b0000, data := 0b00000000 }
  | .byte b => { op := 0b0010, rsv := 0b0000, data := b }
  | .endInput => { op := 0b0011, rsv := 0b0000, data := 0b00000000 }

/-- R71: the word of a command. -/
def encode (i : Instr) : CmdWord :=
  i.fields.toWord

/-- The command word an opcode-table word stands for: its low `nbits` bits, zero above. The port takes
one whole 16-bit word (R82), so there are no bytes to order and no second word. -/
def tableWord (nbits w : Nat) : CmdWord :=
  BitVec.ofNat 16 (w % 2 ^ nbits)

/-- The command the decoder reads from an opcode-table word, none where it refuses the word. -/
def decodeTableWord (nbits w : Nat) : Option Instr :=
  (decode (tableWord nbits w)).toOption

end Sys2Proof
end

