-- ==== Sys2Proof/Config.lean ====
section
/-! DEFINITION. The parameters of R6 (the fixed ones as constants, FIRST_WIDTH as the one field of
`Config`) and the free values: what R184 leaves unspecified after a SINK_ERROR. -/

namespace Sys2Proof

/-- FIRST_WIDTH ∈ {8, 9}: the width of the first packed code (R6, decision D6). -/
inductive FirstWidth where
  | eight
  | nine
  deriving DecidableEq, Repr

/-- FIRST_WIDTH as the 4-bit value the width register W takes at reset (R29, R44). -/
def FirstWidth.bits : FirstWidth → BitVec 4
  | .eight => 8
  | .nine => 9

/-- What is fixed for one engine: the one open parameter of the spec (R6). -/
structure Config where
  firstWidth : FirstWidth
  deriving DecidableEq, Repr

namespace Config

/-- The configuration with the default FIRST_WIDTH = 8 (R6). -/
def default : Config := { firstWidth := .eight }

/-- CODE_BITS (R6). -/
abbrev codeBits : Nat := 9
/-- C, the dictionary capacity in entries: codes 0..511 (R6). -/
abbrev capacity : Nat := 512
/-- FIRST_LEARNED, the initial value of the next-free-slot cursor (R6). -/
abbrev firstLearned : Nat := 257
/-- RESERVED_CODE (R6). -/
abbrev reservedCode : Nat := 256
/-- PAD_CODE (R6). -/
abbrev padCode : Nat := 256
/-- STEADY_WIDTH, the width of every code after the first (R6). -/
abbrev steadyWidth : BitVec 4 := 9
/-- MAGIC, the two magic bytes (R6, R77). -/
abbrev magic : List Byte := [0x1F, 0x9D]
/-- HEADER_BYTE = 0x80 | 9: block mode and the maximum code width (R6, R78). -/
abbrev headerByte : Byte := 0x80 ||| 9

/-! Free values (R184, 93 U5: "any value: a draw; no claim may depend on it"). Each is a constant with
no body, applied to the model's draw counter, so no proof can see what it is. -/

/-- The entry of a code of D after a SINK_ERROR. -/
opaque freeEntry : Nat → Code → Entry
/-- NEXT after a SINK_ERROR. -/
opaque freeNext : Nat → BitVec 10
/-- S after a SINK_ERROR. -/
opaque freeCand : Nat → Str
/-- PEND after a SINK_ERROR. -/
opaque freePend : Nat → Option Code
/-- ACC after a SINK_ERROR. -/
opaque freeAcc : Nat → BitVec 32
/-- CNT after a SINK_ERROR. -/
opaque freeCnt : Nat → BitVec 5
/-- W after a SINK_ERROR. -/
opaque freeWidth : Nat → BitVec 4
/-- The fields of STATUS other than ST and CAUSE after a SINK_ERROR: "as any value" (R33, R184). -/
opaque freeStatus : Nat → StatusWord

end Config
end Sys2Proof
end

