-- ==== Sys2Proof/Machine/State.lean ====
section
/-! DEFINITION. The state of one engine instance (R20) with the parameter it is built with (R6), and, as
the model's own fields, what the outside world is about to do to it and has got back from it (R209). -/

namespace Sys2Proof.Machine

/-- ST, the sequencer state (R21). -/
inductive St where
  | idle
  | stream
  | done
  | fault
  deriving DecidableEq, Repr

/-- CAUSE, the fault cause (R22): the four values that are ever written. -/
inductive Cause where
  | noFault
  | illegalCmd
  | sequence
  | sinkError
  deriving DecidableEq, Repr

/-- What the host can do to the engine (R209): issue a command word, reset it, read STATUS. -/
inductive HostAction where
  | command (w : CmdWord)
  | reset
  | readStatus
  deriving DecidableEq, Repr

/-- The sink's answer to one byte offered to it (R53). -/
inductive SinkAnswer where
  | accept
  | refuse
  deriving DecidableEq, Repr

/-- One engine instance: the ten fields of R20 under the spec's names, its parameter, and the model's own
record of the outside world. -/
structure State where
  /-- ST (R21). -/
  st : St
  /-- CAUSE (R22). -/
  cause : Cause
  /-- D, the dictionary store (R23). -/
  dict : Dict
  /-- NEXT, the code the next successful insert assigns (R24), 10 bits. -/
  next : BitVec 10
  /-- S, the candidate string (R25). -/
  cand : Str
  /-- PEND, the pending code (R26). -/
  pend : Option Code
  /-- ACC, the accumulator (R27), 32 bits. -/
  acc : BitVec 32
  /-- CNT, the count of valid pending bits (R28), 5 bits. -/
  cnt : BitVec 5
  /-- W, the width of the next code to be packed (R29), 4 bits. -/
  width : BitVec 4
  /-- OUT, the bytes the sink accepted since the last reset, in order (R30). -/
  out : Str
  /-- FIRST_WIDTH: a parameter, not state (R6, R20); no step changes it. -/
  cfg : Config
  /-- The model's own: the host's actions still to come, the next one first (R161: one at a time). -/
  host : List HostAction
  /-- The model's own: the sink's answers still to come, the next one first; past its end the sink
  accepts. -/
  sink : List SinkAnswer
  /-- The model's own: every byte the sink has ever accepted, across resets (R201, R206). -/
  delivered : Str
  /-- The model's own: the STATUS words the host has read (R33). -/
  reads : List StatusWord
  /-- The model's own: how many times free values have been drawn (R184). -/
  draws : Nat
  deriving DecidableEq, Repr

/-- The reasons the MODEL would stop with a fault: none. The engine's own faults (ILLEGAL_CMD, SEQUENCE,
SINK_ERROR) are no stops: each is a next state with ST = FAULT (R183), and the spec gives every command
word, the reset action and the STATUS read an effect in every state. Safe: nothing is cut short. -/
inductive Fault where
  deriving DecidableEq, Repr

/-- The reasons the model would refuse an instruction. -/
inductive Refusal where
  /-- An arm of exec without a meaning, by its mnemonic. No arm uses it. Safe. -/
  | notModelled (mnemonic : String)
  deriving DecidableEq, Repr

/-- The state after reset with a given parameter (R44). D lists nothing: every code reads as its reset
contents. -/
def State.resetWith (c : Config) : State where
  st := .idle
  cause := .noFault
  dict := []
  next := 257
  cand := []
  pend := none
  acc := 0
  cnt := 0
  width := c.firstWidth.bits
  out := []
  cfg := c
  host := []
  sink := []
  delivered := []
  reads := []
  draws := 0

/-- The machine right after reset, with the default FIRST_WIDTH = 8 (R6, R44). -/
def State.reset : State := State.resetWith Config.default

end Sys2Proof.Machine
end

