-- ==== Sys2Proof/Machine/Ops.lean ====
section
/-! DEFINITION. The operations every rule is written with: reading and writing the dictionary store (R51,
R52), the sink (R53), entering a fault (R183, R184), the return from it by reset (R200), and the frame
every command runs in (R160, R162). -/

namespace Sys2Proof.Machine

/-! The dictionary store. -/

/-- What a code holds after reset (R44), which is what an unlisted code reads as. -/
def initialEntry (c : Code) : Entry :=
  if c.toNat < 256 then .str [c.truncate 8] else if c = 256 then .reserved else .empty

/-- DictRead(c): the entry D[c] (R51). -/
def dictRead : Dict → Code → Entry
  | [], c => initialEntry c
  | (k, e) :: rest, c => if c = k then e else dictRead rest c

/-- DictWrite(c, e): D with D[c] = e (R52), in the canonical form: an entry equal to the reset contents
of its code is not listed. -/
def dictWrite : Dict → Code → Entry → Dict
  | [], c, e => if e = initialEntry c then [] else [(c, e)]
  | (k, x) :: rest, c, e =>
    if c.toNat < k.toNat then
      if e = initialEntry c then (k, x) :: rest else (c, e) :: (k, x) :: rest
    else if c = k then
      if e = initialEntry c then rest else (c, e) :: rest
    else (k, x) :: dictWrite rest c e

/-- The canonical form of the store: codes strictly rising, no entry equal to the reset contents of its
code. -/
def dictWf : Dict → Bool
  | [] => true
  | (k, e) :: rest => e != initialEntry k && rest.all (fun p => k.toNat < p.1.toNat) && dictWf rest

/-- The codes 0..511 in rising order. -/
def allCodes : List Code :=
  (List.range 512).map (BitVec.ofNat 9)

/-- The store, in canonical form, whose entry at each code is `f` of it. -/
def dictOf (f : Code → Entry) : Dict :=
  allCodes.filterMap fun c => if f c = initialEntry c then none else some (c, f c)

/-! Running an operation that may raise a fault in the middle of a command (R10). -/

/-- Where an operation leaves the engine: it goes on, or a fault was raised and the command stops. -/
inductive Flow where
  | cont (s : State)
  | raised (s : State)
  deriving DecidableEq, Repr

/-- Run the next operation, unless a fault was raised: "leave the step at once" (R10). -/
def Flow.andThen (r : Flow) (f : State → Flow) : Flow :=
  match r with
  | .cont s => f s
  | .raised s => .raised s

/-- The state a command leaves. A raised fault is a state like any other (R183). -/
def Flow.state : Flow → State
  | .cont s => s
  | .raised s => s

/-! Taking a fault, and the way out of it. -/

/-- After a SINK_ERROR every field but ST, CAUSE and OUT is unspecified (R184): each becomes a free value,
a fresh one at every draw. -/
def unspecified (s : State) : State :=
  { s with
    dict := dictOf (Config.freeEntry s.draws)
    next := Config.freeNext s.draws
    cand := Config.freeCand s.draws
    pend := Config.freePend s.draws
    acc := Config.freeAcc s.draws
    cnt := Config.freeCnt s.draws
    width := Config.freeWidth s.draws
    draws := s.draws + 1 }

/-- raise Fault(cause): ST <- FAULT, CAUSE <- cause, and nothing is saved elsewhere (R183). ILLEGAL_CMD
and SEQUENCE change nothing else (R185, R186); SINK_ERROR leaves the rest unspecified (R184). -/
def raiseFault (c : Cause) (s : State) : State :=
  let t := { s with st := .fault, cause := c }
  if c = .sinkError then unspecified t else t

/-- DICT_INIT (R100): every code at its reset contents, which is the store that lists nothing, and the
cursor at 257. -/
def dictInit (s : State) : State :=
  { s with dict := [], next := BitVec.ofNat 10 Config.firstLearned }

/-- The reset action (R200), accepted in every state and the only way out of FAULT and DONE (R189, R201).
It writes nothing to the sink. What the outside world holds is not the engine's to reset. -/
def resetEngine (s : State) : State :=
  { dictInit s with
    cand := []
    pend := none
    acc := 0
    cnt := 0
    width := s.cfg.firstWidth.bits
    out := []
    cause := .noFault
    st := .idle }

/-! The sink. -/

/-- The sink takes the byte: OUT <- OUT ++ [b] (R53). -/
def acceptByte (b : Byte) (s : State) : State :=
  { s with sink := s.sink.tail, out := s.out ++ [b], delivered := s.delivered ++ [b] }

/-- The sink refuses the byte: it is not appended, and the command raises SINK_ERROR (R53, R184). -/
def refuseByte (s : State) : State :=
  raiseFault .sinkError { s with sink := s.sink.tail }

/-- SinkWrite(b) (R53). A sink with no answer listed accepts. -/
def sinkWrite (b : Byte) (s : State) : Flow :=
  match s.sink.head? with
  | some .refuse => .raised (refuseByte s)
  | some .accept => .cont (acceptByte b s)
  | none => .cont (acceptByte b s)

/-- SinkWrite of several bytes, in order. -/
def sinkWrites : List Byte → State → Flow
  | [], s => .cont s
  | b :: bs, s => (sinkWrite b s).andThen (sinkWrites bs)

/-! The frame of a command. -/

/-- The sequencing table (R162): which command is accepted in which ST. In FAULT none is; there the
command is ignored before the table is asked (R160). -/
def accepted : St → Instr → Bool
  | .idle, .start => true
  | .idle, .byte _ => false
  | .idle, .endInput => false
  | .stream, .start => false
  | .stream, .byte _ => true
  | .stream, .endInput => true
  | .done, .start => false
  | .done, .byte _ => false
  | .done, .endInput => false
  | .fault, .start => false
  | .fault, .byte _ => false
  | .fault, .endInput => false

/-- One legal command as a step (R160, R187): ignored in FAULT, SEQUENCE where the table does not accept
it, and otherwise its effect. -/
def runCommand (i : Instr) (effect : State → Flow) (s : State) : Host.Outcome State Fault Refusal :=
  if s.st = .fault then .next s
  else if accepted s.st i then .next (effect s).state
  else .next (raiseFault .sequence s)

/-- An illegal command word as a step (R160, R185, R187): ignored in FAULT, and otherwise ILLEGAL_CMD. -/
def runIllegal (s : State) : Host.Outcome State Fault Refusal :=
  if s.st = .fault then .next s else .next (raiseFault .illegalCmd s)

end Sys2Proof.Machine
end

