-- ==== Sys2Proof/Machine/Dictionary.lean ====
section
/-! DEFINITION. The Dictionary's operations (41_dictionary.md). DICT_INIT (R100) stands in
`resetEngine`: it runs only at reset. -/

namespace Sys2Proof.Machine

/-- What DICT_INSERT answers: the code it assigned, or Full (R102). -/
inductive InsertResult where
  | assigned (c : Code)
  | full
  deriving DecidableEq, Repr

/-- DICT_LOOKUP(v) (R101): the first code, in code order, whose entry is exactly Str(v); none is NotFound.
Equality is of whole strings (R9, R104). -/
def dictLookup (d : Dict) (v : Str) : Option Code :=
  allCodes.find? fun c => dictRead d c = .str v

/-- DICT_INSERT(v) (R102): assign v to the next free slot and advance the cursor, or report Full and
change nothing. It does not check whether v is already stored. -/
def dictInsert (v : Str) (s : State) : InsertResult × State :=
  if s.next.toNat ≥ Config.capacity then (.full, s)
  else
    let c := s.next.truncate 9
    (.assigned c, { s with dict := dictWrite s.dict c (.str v), next := s.next + 1 })

end Sys2Proof.Machine
end

