-- ==== Sys2Proof/Machine/Operands.lean ====
section
/-! DEFINITION. The operand forms: the DATA byte of BYTE, used as it is (R72), and the integer operand of
PK_PUT_CODE, of which only the low 9 bits take part (R140, R143). -/

namespace Sys2Proof.Machine

/-- The code of an integer given to PK_PUT_CODE: x[8:0], the higher bits discarded (R140, R143). -/
def lowNine (x : Nat) : Code :=
  BitVec.ofNat 9 x

/-- zext_32(x[8:0]): the value ORed into the accumulator (R140). -/
def packedValue (x : Nat) : BitVec 32 :=
  (lowNine x).zeroExtend 32

/-- The literal code of a byte: the code with the byte's value (R12, R75). -/
def literalCode (b : Byte) : Code :=
  b.zeroExtend 9

end Sys2Proof.Machine
end

