-- ==== Sys2Proof/Machine/Packer.lean ====
section
/-! DEFINITION. The Bit Packer's operations (43_bit_packer.md). -/

namespace Sys2Proof.Machine

/-- The byte loop of PK_PUT_CODE (R140): while at least 8 of the `n` pending bits remain, send ACC[n-1:n-8].
`n` is the pending count inside the call, an exact number (it reaches 16, R39); what is left when the loop
ends is CNT. The first argument bounds the loop: each turn takes 8 from `n`. -/
def sendWholeBytes : Nat → Nat → State → Flow
  | 0, n, s => .cont { s with cnt := BitVec.ofNat 5 n }
  | fuel + 1, n, s =>
    if 8 ≤ n then (sinkWrite (s.acc.extractLsb' (n - 8) 8) s).andThen (sendWholeBytes fuel (n - 8))
    else .cont { s with cnt := BitVec.ofNat 5 n }

/-- PK_PUT_CODE(x) (R140): shift the low 9 bits of x in at the current width, send every whole byte, and
set the width to 9. -/
def pkPutCode (x : Nat) (s : State) : Flow :=
  let pending := s.cnt.toNat + s.width.toNat
  let shifted := { s with acc := (s.acc <<< s.width.toNat) ||| packedValue x }
  (sendWholeBytes pending pending shifted).andThen fun t => .cont { t with width := Config.steadyWidth }

/-- PK_PUT_STRING(s) (R141): one PK_PUT_CODE per byte, in order. -/
def pkPutString : Str → State → Flow
  | [], s => .cont s
  | b :: rest, s => (pkPutCode b.toNat s).andThen (pkPutString rest)

/-- The loop of PK_FLUSH (R142): while CNT mod W is not 0, pack the pad code. The first argument bounds
the loop. -/
def padToBoundary : Nat → State → Flow
  | 0, s => .cont s
  | fuel + 1, s =>
    if s.cnt.toNat % s.width.toNat ≠ 0 then (pkPutCode Config.padCode s).andThen (padToBoundary fuel)
    else .cont s

/-- PK_FLUSH (R142). Eight turns always suffice: after one PK_PUT_CODE, CNT < 8 and W = 9, and each pad
code then adds 1 to CNT modulo 8 (R144). -/
def pkFlush (s : State) : Flow :=
  padToBoundary 8 s

end Sys2Proof.Machine
end

