-- ==== Sys2Proof/Machine/EncoderLoop.lean ====
section
/-! DEFINITION. The Encoder Loop's operations (42_encoder_loop.md). -/

namespace Sys2Proof.Machine

/-- LOOP_EMIT_PENDING(before) (R121): the pending code, or the raw bytes of `before` when none is. -/
def loopEmitPending (before : Str) (s : State) : Flow :=
  match s.pend with
  | none => pkPutString before s
  | some k => pkPutCode k.toNat s

/-- Steps 3 and 4 of LOOP_BYTE(b) (R120), on the answer of the lookup of S ++ [b]. On a hit (step 3) the
candidate grows and nothing is emitted. On a miss (step 4) the grown candidate is inserted, a Full result
being ignored, the pending code is emitted, and the candidate restarts at the byte. Step 4d assigns what the
lookup of the one byte answers: that byte's code. -/
def loopByteFound (b : Byte) (s : State) : Option Code → Flow
  | some k => .cont { s with cand := s.cand ++ [b], pend := some k }
  | none =>
    (loopEmitPending s.cand (dictInsert (s.cand ++ [b]) s).2).andThen fun t =>
      .cont { t with cand := [b], pend := dictLookup t.dict [b] }

/-- LOOP_BYTE(b) (R120): look up the candidate with the byte appended (steps 1 and 2), then steps 3 and 4. -/
def loopByte (b : Byte) (s : State) : Flow :=
  loopByteFound b s (dictLookup s.dict (s.cand ++ [b]))

/-- LOOP_END (R122): emit once more, then flush. S and PEND are left as they are. -/
def loopEnd (s : State) : Flow :=
  (loopEmitPending s.cand s).andThen pkFlush

end Sys2Proof.Machine
end

