-- ==== Sys2Proof/Machine/Commands.lean ====
section
/-! DEFINITION. The meanings of the three host commands (44_host_commands.md), with the Container
Writer's header. -/

namespace Sys2Proof.Machine

/-- CW_HEADER (R164): the two magic bytes, then 0x80 | 9. It does not pass through the accumulator. -/
def cwHeader (s : State) : Flow :=
  sinkWrites (Config.magic ++ [Config.headerByte]) s

/-- do_START (R163): write the header, then ST <- STREAM. -/
def doStart (s : State) : Flow :=
  (cwHeader s).andThen fun t => .cont { t with st := .stream }

/-- do_BYTE(b) (R165). -/
def doByte (b : Byte) (s : State) : Flow :=
  loopByte b s

/-- do_END (R166): the final code and the flush, then ST <- DONE. -/
def doEnd (s : State) : Flow :=
  (loopEnd s).andThen fun t => .cont { t with st := .done }

/-- START as a step (R160, R163). -/
def execStart (s : State) : Host.Outcome State Fault Refusal :=
  runCommand .start doStart s

/-- BYTE b as a step (R160, R165). -/
def execByte (b : Byte) (s : State) : Host.Outcome State Fault Refusal :=
  runCommand (.byte b) (doByte b) s

/-- END as a step (R160, R166). -/
def execEndInput (s : State) : Host.Outcome State Fault Refusal :=
  runCommand .endInput doEnd s

end Sys2Proof.Machine
end

