-- ==== Sys2Proof/Machine/Dispatch.lean ====
section
/-! DEFINITION. One arm per command: R160's case split. -/

namespace Sys2Proof.Machine

def exec (i : Instr) (s : State) : Host.Outcome State Fault Refusal :=
  match i with
  | .start => Sys2Proof.Machine.execStart s
  | .byte b => Sys2Proof.Machine.execByte b s
  | .endInput => Sys2Proof.Machine.execEndInput s

end Sys2Proof.Machine
end

