-- ==== Sys2Proof/Machine/Flags.lean ====
section
/-! DEFINITION. The flags (R34) and the STATUS word (R32, R33). -/

namespace Sys2Proof.Machine

/-- ST as its 2-bit code (R21). -/
def St.code : St → BitVec 2
  | .idle => 0
  | .stream => 1
  | .done => 2
  | .fault => 3

/-- CAUSE as its 4-bit code (R22, R180). -/
def Cause.code : Cause → BitVec 4
  | .noFault => 0
  | .illegalCmd => 1
  | .sequence => 2
  | .sinkError => 3

/-- DICT_FULL: NEXT = 512 (R32, R34). -/
def State.dictFull (s : State) : Bool :=
  s.next == 512

/-- PEND_VALID: a code is pending (R32, R34). -/
def State.pendValid (s : State) : Bool :=
  s.pend.isSome

/-- W9: W = 9 (R32). -/
def State.w9 (s : State) : Bool :=
  s.width == 9

/-- A STATUS word from its fields, most significant first: reserved 31:26, NEXT 25:16, reserved 15:14,
W9 13, CNT 12:8, CAUSE 7:4, PEND_VALID 3, DICT_FULL 2, ST 1:0 (R32). -/
def statusWord (next : BitVec 10) (w9 : Bool) (cnt : BitVec 5) (cause : BitVec 4) (pendValid dictFull : Bool)
    (st : BitVec 2) : StatusWord :=
  0#6 ++ next ++ 0#2 ++ BitVec.ofBool w9 ++ cnt ++ cause ++ BitVec.ofBool pendValid ++ BitVec.ofBool dictFull ++ st

/-- STATUS (R32). After a SINK_ERROR the fields other than ST and CAUSE read as any value (R33, R184):
they are cut from a free word, which stays the same until the next draw, since a command in FAULT and
a STATUS read change nothing. -/
def State.status (s : State) : StatusWord :=
  if s.st = .fault ∧ s.cause = .sinkError then
    let f := Config.freeStatus s.draws
    statusWord (f.extractLsb' 16 10) (f.getLsbD 13) (f.extractLsb' 8 5) s.cause.code (f.getLsbD 3) (f.getLsbD 2)
      s.st.code
  else
    statusWord s.next s.w9 s.cnt s.cause.code s.pendValid s.dictFull s.st.code

end Sys2Proof.Machine
end

