-- ==== Sys2Proof/Machine/HostPort.lean ====
section
/-! DEFINITION. The engine's ports as the host drives them (R209): a command word, the reset action, a
STATUS read. -/

namespace Sys2Proof.Machine

/-- One command word (R160): decode it, then run the command or raise ILLEGAL_CMD. -/
def runWord (w : CmdWord) (s : State) : Host.Outcome State Fault Refusal :=
  match decode w with
  | .ok i => exec i s
  | .error _ => runIllegal s

/-- A STATUS read (R33): no side effect on the engine; the host gets the word. -/
def readStatus (s : State) : State :=
  { s with reads := s.reads ++ [s.status] }

/-- One host action, already taken off the host's list. -/
def runAction (a : HostAction) (s : State) : Host.Outcome State Fault Refusal :=
  match a with
  | .command w => runWord w s
  | .reset => .next (resetEngine s)
  | .readStatus => .next (readStatus s)

/-- The host's next action (R161: one at a time, each to its end). With none to come the engine is idle
and keeps all state (R196). -/
def hostStep (s : State) : Host.Outcome State Fault Refusal :=
  match s.host with
  | [] => .next s
  | a :: rest => runAction a { s with host := rest }

/-- The host issues this word next. -/
def issueWord (w : CmdWord) (s : State) : State :=
  { s with host := .command w :: s.host }

end Sys2Proof.Machine
end

