-- ==== Sys2Proof/Machine/Step.lean ====
section
/-! DEFINITION. One step of the machine: the host's next action (R10, R160). -/

namespace Sys2Proof.Machine

/-- One step. -/
def step (s : State) : Host.Outcome State Fault Refusal :=
  hostStep s

/-- The state with an opcode-table word as the host's next action, which is where `step` takes its next
command from. -/
def State.withFetchWord (s : State) (nbits w : Nat) : State :=
  issueWord (tableWord nbits w) s

end Sys2Proof.Machine
end

