-- ==== Sys2Proof/Machine/Assembler.lean ====
section
/-! DEFINITION. The command assembly syntax (R81): a listing, one command per line, to the host actions it
stands for. It is a notation for what the host does; no step reads it. -/

namespace Sys2Proof.Machine

/-- A token of a line: a mnemonic or number, a quoted character, a quoted text, a comma. -/
inductive Token where
  | word (w : List Char)
  | char (c : Char)
  | text (t : List Char)
  | comma
  deriving DecidableEq, Repr

/-- Where the scanner of a line is: between tokens, inside a word or a text (its characters so far, last
first), after the opening quote of a character, after the character. -/
inductive ScanMode where
  | between
  | inWord (acc : List Char)
  | inText (acc : List Char)
  | openQuote
  | quoted (c : Char)
  deriving DecidableEq, Repr

/-- A space or a tab. -/
def isBlank (c : Char) : Bool :=
  c == ' ' || c == '\t'

/-- The tokens of a line, up to the comment `;` starts; none where the line has no such reading. -/
def scan : ScanMode → List Char → Option (List Token)
  | .between, [] => some []
  | .between, c :: cs =>
    if c = ';' then some []
    else if isBlank c then scan .between cs
    else if c = ',' then (scan .between cs).map (.comma :: ·)
    else if c = '"' then scan (.inText []) cs
    else if c = '\'' then scan .openQuote cs
    else if c.isAlphanum then scan (.inWord [c]) cs
    else none
  | .inWord acc, [] => some [.word acc.reverse]
  | .inWord acc, c :: cs =>
    if c.isAlphanum then scan (.inWord (c :: acc)) cs
    else if c = ';' then some [.word acc.reverse]
    else if isBlank c then (scan .between cs).map (.word acc.reverse :: ·)
    else if c = ',' then (scan .between cs).map fun ts => .word acc.reverse :: .comma :: ts
    else none
  | .inText _, [] => none
  | .inText acc, c :: cs =>
    if c = '"' then (scan .between cs).map (.text acc.reverse :: ·)
    else scan (.inText (c :: acc)) cs
  | .openQuote, [] => none
  | .openQuote, c :: cs => scan (.quoted c) cs
  | .quoted _, [] => none
  | .quoted c, q :: cs => if q = '\'' then (scan .between cs).map (.char c :: ·) else none

/-- The value of a hexadecimal digit. -/
def hexDigit (c : Char) : Option Nat :=
  if '0'.toNat ≤ c.toNat ∧ c.toNat ≤ '9'.toNat then some (c.toNat - '0'.toNat)
  else if 'a'.toNat ≤ c.toNat ∧ c.toNat ≤ 'f'.toNat then some (c.toNat - 'a'.toNat + 10)
  else if 'A'.toNat ≤ c.toNat ∧ c.toNat ≤ 'F'.toNat then some (c.toNat - 'A'.toNat + 10)
  else none

/-- The number of digits in a base, most significant first; none where a digit is not one of the base. -/
def digits (base : Nat) : Nat → List Char → Option Nat
  | acc, [] => some acc
  | acc, c :: cs =>
    match hexDigit c with
    | some n => if n < base then digits base (acc * base + n) cs else none
    | none => none

/-- An ASCII character as a byte. -/
def asciiByte (c : Char) : Option Byte :=
  if c.toNat < 128 then some (BitVec.ofNat 8 c.toNat) else none

/-- imm8 (R81): `0xNN`, a decimal 0..255, or a quoted ASCII character. DESIGN CHOICE (log entry 19): R81 does not
say how many digits a decimal has; any number of them is taken, so leading zeros are (`0065` is 65). -/
def immediate : Token → Option Byte
  | .word ['0', 'x', h, l] => (digits 16 0 [h, l]).map (BitVec.ofNat 8)
  | .word (c :: cs) => (digits 10 0 (c :: cs)).bind fun n => if n ≤ 255 then some (BitVec.ofNat 8 n) else none
  | .word [] => none
  | .char c => asciiByte c
  | .text _ => none
  | .comma => none

/-- One or more immediates with commas between them: the list form of BYTES (R81). DESIGN CHOICE (log entry 19):
R81 writes the elements as 0xNN only; each may also be a decimal or a quoted character, as for BYTE. -/
def immediates : List Token → Option (List Byte)
  | [] => none
  | [t] => (immediate t).map ([·])
  | t :: .comma :: rest => (immediate t).bind fun b => (immediates rest).map (b :: ·)
  | _ :: _ => none

/-- The command words of a command. -/
def issue (i : Instr) : HostAction :=
  .command (encode i)

/-- The bytes of an ASCII text. -/
def textBytes (t : List Char) : Option (List Byte) :=
  t.mapM asciiByte

/-- One line (R81): a command, a pseudo-command with its expansion, the mark RESET, or nothing. A line that
is a bare 16-bit word `0xNNNN`, as program P6 of 95_test_vectors.md writes one, is that word. -/
def statement : List Token → Option (List HostAction)
  | [] => some []
  | [.word ['S', 'T', 'A', 'R', 'T']] => some [issue .start]
  | [.word ['E', 'N', 'D']] => some [issue .endInput]
  | [.word ['R', 'E', 'S', 'E', 'T']] => some [.reset]
  | [.word ['B', 'Y', 'T', 'E'], t] => (immediate t).map fun b => [issue (.byte b)]
  | [.word ['B', 'Y', 'T', 'E', 'S'], .text t] => (textBytes t).map fun bs => bs.map fun b => issue (.byte b)
  | .word ['B', 'Y', 'T', 'E', 'S'] :: ts => (immediates ts).map fun bs => bs.map fun b => issue (.byte b)
  | [.word ['E', 'N', 'C', 'O', 'D', 'E'], .text t] =>
    (textBytes t).map fun bs => issue .start :: (bs.map fun b => issue (.byte b)) ++ [issue .endInput]
  | [.word ['0', 'x', a, b, c, d]] => (digits 16 0 [a, b, c, d]).map fun n => [.command (BitVec.ofNat 16 n)]
  | _ => none

/-- Assemble one line. -/
def assembleLine (line : List Char) : Option (List HostAction) :=
  (scan .between line).bind statement

/-- Assemble a listing, its lines in order; none where a line does not assemble. -/
def assemble : List (List Char) → Option (List HostAction)
  | [] => some []
  | line :: rest => (assembleLine line).bind fun as => (assemble rest).map (as ++ ·)

end Sys2Proof.Machine
end

