-- ==== Sys2Proof/Safety.lean ====
section
/-! DEFINITION. The terms claims are stated in: the sink's readiness, the invariants of 10_state.md, the
end of a session (R204), the bit queue (R145), and the stream a session encodes, written from the rules on
strings and codes alone, without the engine's registers. -/

namespace Sys2Proof.Machine

/-! The sink and the session. -/

/-- The sink accepts the next `n` bytes offered to it. -/
abbrev State.SinkReady (s : State) (n : Nat) : Prop :=
  ∀ a ∈ s.sink.take n, a = SinkAnswer.accept

/-- The sink accepts `n` bytes and refuses the one after them. -/
abbrev State.SinkRefusesAfter (s : State) (n : Nat) : Prop :=
  s.SinkReady n ∧ s.sink[n]? = some .refuse

/-- A session has ended well (R204): its compressed stream is then exactly OUT. -/
abbrev State.EndedWell (s : State) : Prop :=
  s.st = .done ∧ s.cause = .noFault

/-- The container header: the magic bytes and the header byte (R77, R78). -/
def headerBytes : Str := [0x1F, 0x9D, 0x89]

/-! The invariants (10_state.md, section 9). -/

/-- The dictionary (R23, R24, R35, R36): the fixed entries, the range of the cursor, every learned string
one byte longer than a string at a smaller code, nothing past the cursor, and no string stored twice. -/
structure DictInv (d : Dict) (next : BitVec 10) : Prop where
  literal : ∀ c : Code, c.toNat < 256 → dictRead d c = .str [c.truncate 8]
  reserved : dictRead d 256 = .reserved
  cursor : 257 ≤ next.toNat ∧ next.toNat ≤ 512
  learned : ∀ c : Code, 257 ≤ c.toNat → c.toNat < next.toNat →
    ∃ (j : Code) (p : Str) (b : Byte),
      j.toNat < c.toNat ∧ p ≠ [] ∧ dictRead d j = .str p ∧ dictRead d c = .str (p ++ [b])
  unfilled : ∀ c : Code, next.toNat ≤ c.toNat → dictRead d c = .empty
  unique : ∀ (c c' : Code) (v : Str), dictRead d c = .str v → dictRead d c' = .str v → c = c'

/-- The engine between commands, where no SINK_ERROR has left it unspecified. -/
structure State.EngineInv (s : State) : Prop where
  /-- R23, R24, R35, R36. -/
  dict : DictInv s.dict s.next
  /-- R38, R123: nothing pending, no candidate and no code sent yet, or the pending code is the candidate's. -/
  pending : (s.pend = none ∧ s.cand = [] ∧ s.out.length ≤ 3) ∨
    ∃ k, s.pend = some k ∧ dictRead s.dict k = .str s.cand
  /-- R39: at most 7 pending bits. -/
  cntSmall : s.cnt.toNat ≤ 7
  /-- Before the session's first code (R29, R41, R124): the width is FIRST_WIDTH, no bit is pending,
  nothing is learned and the candidate is at most one byte. -/
  firstCode : s.out.length ≤ 3 →
    s.width = s.cfg.firstWidth.bits ∧ s.cnt = 0 ∧ s.next = 257 ∧ s.cand.length ≤ 1
  /-- From the first code on (R29, R39, R41): the width is 9, and the bits sent and pending are those of
  one code at FIRST_WIDTH and a number of codes at 9. -/
  laterCodes : 3 < s.out.length →
    s.width = 9 ∧ ∃ n, 8 * (s.out.length - 3) + s.cnt.toNat = s.cfg.firstWidth.bits.toNat + 9 * n
  /-- OUT is empty before START, with nothing pending, and then begins with the header (R77, R163). -/
  header : (s.out = [] ∧ s.pend = none) ∨ headerBytes <+: s.out
  idle : s.st = .idle → s.out = []
  started : s.st = .stream ∨ s.st = .done → headerBytes <+: s.out
  /-- After END no bit is pending: the stream is byte aligned (R57, R166). -/
  aligned : s.st = .done → s.cnt = 0

/-- The invariant every step keeps. -/
structure State.Inv (s : State) : Prop where
  /-- The store is in canonical form. -/
  canonical : dictWf s.dict = true
  /-- CAUSE is 0 exactly when ST is not FAULT (R22, R183). -/
  faultCause : s.cause = .noFault ↔ s.st ≠ .fault
  /-- What the sink accepted in this session is the end of all it ever accepted (R201, R206). -/
  delivered : s.out <:+ s.delivered
  /-- After a SINK_ERROR the engine's fields are unspecified (R184); otherwise its invariant holds. -/
  engine : s.cause ≠ .sinkError → s.EngineInv

/-! The frames of commands, the host's reset, and the other readings of the dictionary (R105, R106). -/

/-- The engine's registers that hold a dictionary, a candidate or pending bits, as one tuple. -/
def State.registers (s : State) :
    Dict × BitVec 10 × Str × Option Code × BitVec 32 × BitVec 5 × BitVec 4 :=
  (s.dict, s.next, s.cand, s.pend, s.acc, s.cnt, s.width)

/-- The fields no command touches: the parameter, the host's coming actions, what it has read. -/
def State.surroundings (s : State) : Config × List HostAction × List StatusWord :=
  (s.cfg, s.host, s.reads)

/-- The host's next action is the reset. -/
def State.ResetsNext (s : State) : Prop :=
  ∃ rest, s.host = .reset :: rest

/-- A lookup that accepts the first entry, in code order, that has the string as a prefix (R105). -/
def prefixLookup (d : Dict) (v : Str) : Option Code :=
  allCodes.find? fun c =>
    match dictRead d c with
    | .str w => v.isPrefixOf w
    | .reserved => false
    | .empty => false

/-- A learned entry as the pair of R106: the code of the string without its last byte, and that byte. -/
def entryPair (d : Dict) (c : Code) : Option (Code × Byte) :=
  match dictRead d c with
  | .str w => if w.length < 2 then none else (dictLookup d w.dropLast).bind fun k => w.getLast?.map fun b => (k, b)
  | .reserved => none
  | .empty => none

/-- A search for a pair among the learned codes (R106). -/
def pairLookup (d : Dict) (k : Code) (b : Byte) : Option Code :=
  allCodes.find? fun c => entryPair d c = some (k, b)

/-! The bit queue (R145). -/

/-- The low `n` bits of a number, most significant first (R55): what a code of width n contributes. -/
def codeBits : Nat → Nat → List Bool
  | 0, _ => []
  | n + 1, x => x.testBit n :: codeBits n x

/-- The number whose bits, most significant first, are the list. -/
def bitsValue : List Bool → Nat
  | [] => 0
  | b :: rest => b.toNat * 2 ^ rest.length + bitsValue rest

/-- The bit sequence cut into groups of 8, each read with its first bit as bit 7 (R55); bits after the last
whole group are left out. -/
def cutBytes : List Bool → List Byte
  | b7 :: b6 :: b5 :: b4 :: b3 :: b2 :: b1 :: b0 :: rest =>
    BitVec.ofNat 8 (bitsValue [b7, b6, b5, b4, b3, b2, b1, b0]) :: cutBytes rest
  | _ => []

/-- The bits after the last whole group of 8: those still pending. -/
def uncutBits : List Bool → List Bool
  | _ :: _ :: _ :: _ :: _ :: _ :: _ :: _ :: rest => uncutBits rest
  | rest => rest

/-- The valid pending bits ACC[CNT-1:0], oldest first (R27). -/
def State.pendingBits (s : State) : List Bool :=
  codeBits s.cnt.toNat s.acc.toNat

/-- The bits of a sequence of codes, the first at width `w` and the rest at 9 (R29, R56). -/
def streamBits (w : Nat) : List Nat → List Bool
  | [] => []
  | x :: xs => codeBits w x ++ xs.flatMap (codeBits 9)

/-- PK_PUT_CODE of several codes, in order. -/
def pkPutCodes : List Nat → State → Flow
  | [], s => .cont s
  | x :: xs, s => (pkPutCode x s).andThen (pkPutCodes xs)

/-! The stream of a session, from the rules on strings and codes (R75, R79, R102, R120, R124). -/

/-- Whether a string is known: a single byte always is; a longer one when it was learned. -/
def refKnown (learned : List Str) (v : Str) : Bool :=
  v.length == 1 || learned.contains v

/-- The code of a known string: the byte's own value, or 257 and up in the order of learning. -/
def refCode (learned : List Str) : Str → Nat
  | [b] => b.toNat
  | v => 257 + learned.idxOf v

/-- Learning a string: at most 255 are learned (R107). -/
def refLearn (learned : List Str) (v : Str) : List Str :=
  if learned.length < 255 then learned ++ [v] else learned

/-- The codes the longest-match loop emits for an input, from a candidate on: one at each miss, and the
last candidate's at the end of the input (R124). -/
def refCodes (learned : List Str) (cand : Str) : Str → List Nat
  | [] => if cand = [] then [] else [refCode learned cand]
  | b :: rest =>
    if refKnown learned (cand ++ [b]) then refCodes learned (cand ++ [b]) rest
    else refCode learned cand :: refCodes (refLearn learned (cand ++ [b])) [b] rest

/-- A bit sequence padded with pad codes 256 to a byte boundary: (8 - c) mod 8 of them, where c bits are
left over (R79, R144). -/
def padBits (q : List Bool) : List Bool :=
  q ++ (List.replicate ((8 - q.length % 8) % 8) (codeBits 9 256)).flatten

/-- The output of a session: the header, then the padded code stream cut into bytes (R77, R79). -/
def refOutput (fw : FirstWidth) (input : Str) : Str :=
  headerBytes ++ cutBytes (padBits (streamBits fw.bits.toNat (refCodes [] [] input)))

/-- The host's actions for a session: START, one BYTE per input byte, END (R203). -/
def sessionActions (input : Str) : List HostAction :=
  .command (encode .start) :: (input.map fun b => .command (encode (.byte b))) ++ [.command (encode .endInput)]

/-! The spellings of the assembly syntax (R81). -/

/-- The characters of a hexadecimal digit: R81 writes capitals (`0xNN`); small letters too are the model's choice
(log entry 19). -/
def hexChars (n : Nat) : List Char :=
  [(Nat.digitChar n).toUpper, Nat.digitChar n]

/-- The spellings `0xNN` of a byte. -/
def hexTexts (b : Byte) : List (List Char) :=
  (hexChars (b.toNat / 16)).flatMap fun h => (hexChars (b.toNat % 16)).map fun l => ['0', 'x', h, l]

/-- The spellings of a byte as imm8: `0xNN`, its decimal, and where it is ASCII its character in single quotes. That
the character may be any ASCII one, a quote or a semicolon too, is the model's choice (log entry 19). -/
def immTexts (b : Byte) : List (List Char) :=
  hexTexts b ++ [Nat.toDigits 10 b.toNat] ++ if b.toNat < 128 then [['\'', Char.ofNat b.toNat, '\'']] else []

/-- Spellings with a comma and a space between them. -/
def commaList : List (List Char) → List Char
  | [] => []
  | [t] => t
  | t :: u :: rest => t ++ ',' :: ' ' :: commaList (u :: rest)

/-- One BYTE word per byte, in order: the expansion of BYTES (R81). -/
def byteWords (bs : Str) : List HostAction :=
  bs.map fun b => .command (encode (.byte b))

end Sys2Proof.Machine
end

