-- ==== Sys2Proof/WellFormed.lean ====
section
/-! DEFINITION. When the fields of a command word are those of a legal command (R70, R71, R74), each
check by itself, and the check on a command's operand (R72). -/

namespace Sys2Proof

/-- RSV is reserved and must be 0000 (R70). -/
def CmdFields.rsvOk (f : CmdFields) : Bool :=
  f.rsv == 0

/-- OP is one of the three defined operations (R71): 0x0 and 0x4..0xF are reserved. -/
def CmdFields.opOk (f : CmdFields) : Bool :=
  f.op == 1 || f.op == 2 || f.op == 3

/-- DATA must be 0x00 but for BYTE (R70). -/
def CmdFields.dataOk (f : CmdFields) : Bool :=
  f.op == 2 || f.data == 0

/-- The fields of a legal command word: all three checks. -/
def CmdFields.wf (f : CmdFields) : Bool :=
  f.rsvOk && f.opOk && f.dataOk

/-- A command's operand is an unsigned byte 0..255 (R72). The type of DATA already says so, so every
command is well formed; START and END take no operand. -/
def Instr.wf : Instr → Bool
  | .start => true
  | .byte b => b.toNat ≤ 255
  | .endInput => true

end Sys2Proof
end

