-- ==== Sys2Proof/Certificates/Slice0/Obligations.lean ====
section
/-! DEFINITION. The statements. Each docstring names the rule of the spec it formalises. The fields host,
sink, delivered, reads and draws are the model's own (log entries 2, 3, 4, 12, 13); a statement that names
one holds for every value of it. -/

open Sys2Proof Sys2Proof.Machine

/-! Encoding. -/

/-- R71: the bit patterns of the three commands, and the reserved operations. -/
def Obligations.CommandWordPatterns : Prop :=
  decode 0x1000 = .ok .start ∧ encode .start = 0x1000 ∧
  (∀ b : Byte, decode (0x2000 ||| b.zeroExtend 16) = .ok (.byte b) ∧ encode (.byte b) = 0x2000 ||| b.zeroExtend 16) ∧
  decode 0x3000 = .ok .endInput ∧ encode .endInput = 0x3000 ∧
  ∀ w : CmdWord, (w.toNat / 4096 = 0 ∨ 4 ≤ w.toNat / 4096) → ∃ e, decode w = .error e

/-- The decode vectors V-H-1 to V-H-11 of 95_test_vectors.md: a sanity statement. -/
def Obligations.DecodeVectorsOfTheSpec : Prop :=
  decodeTableWord 16 0x1000 = some .start ∧ decodeTableWord 16 0x2000 = some (.byte 0x00) ∧
  decodeTableWord 16 0x20FF = some (.byte 0xFF) ∧ decodeTableWord 16 0x3000 = some .endInput ∧
  decodeTableWord 16 0x0000 = none ∧ decodeTableWord 16 0x1001 = none ∧ decodeTableWord 16 0x3080 = none ∧
  decodeTableWord 16 0x2141 = none ∧ decodeTableWord 16 0x4000 = none ∧ decodeTableWord 16 0xF000 = none ∧
  decodeTableWord 16 0x1F00 = none

/-- Decoding and encoding agree for every word and every command, in both directions. -/
def Obligations.DecodeEncodeAgree : Prop :=
  ∀ (w : CmdWord) (i : Instr), decode w = .ok i ↔ w = encode i

/-- R73: decoding as a function of the word's number, case by case in the rule's order, and the count of the
legal words. -/
def Obligations.DecodeIsTotalAsRuled : Prop :=
  (∀ w : CmdWord, (decode w).toOption =
    if w.toNat / 256 % 16 ≠ 0 then none
    else if w.toNat / 4096 = 1 ∧ w.toNat % 256 = 0 then some .start
    else if w.toNat / 4096 = 2 then some (.byte (BitVec.ofNat 8 (w.toNat % 256)))
    else if w.toNat / 4096 = 3 ∧ w.toNat % 256 = 0 then some .endInput
    else none) ∧
  ((List.range 65536).filter fun n => (decode (BitVec.ofNat 16 n)).toOption.isSome).length = 258

/-- R70, R74: a word is legal exactly when its fields pass the three checks of the format. -/
def Obligations.LegalWordsPassTheFormatChecks : Prop :=
  ∀ w : CmdWord, (∃ i, decode w = .ok i) ↔ (CmdFields.ofWord w).wf = true

/-! The step. -/

/-- R160: when the host's next word decodes to a command, the step is exec of that command once the word is
taken; and for the word of any command issued next, it is exec of the command at the state itself. -/
def Obligations.StepRunsTheDecodedCommand : Prop :=
  (∀ (s : State) (w : CmdWord) (rest : List HostAction) (i : Instr),
    s.host = .command w :: rest → decode w = .ok i → step s = exec i { s with host := rest }) ∧
  ∀ (s : State) (i : Instr), step (s.withFetchWord 16 (encode i).toNat) = exec i s

/-- R185: an illegal word sets ST = FAULT and CAUSE = 1 and changes nothing else (the word is taken off the
host's list). It does so in every state but FAULT, so also where a legal word would be out of sequence. -/
def Obligations.IllegalWordFaultsPrecisely : Prop :=
  ∀ (s : State) (w : CmdWord) (rest : List HostAction) (e : IllegalWord),
    s.host = .command w :: rest → s.st ≠ .fault → decode w = .error e →
    step s = .next { s with host := rest, st := .fault, cause := .illegalCmd }

/-- R186: a legal command out of sequence sets ST = FAULT and CAUSE = 2 and changes nothing else. -/
def Obligations.OutOfSequenceFaultsPrecisely : Prop :=
  (∀ s : State, s.st = .stream ∨ s.st = .done → exec .start s = .next { s with st := .fault, cause := .sequence }) ∧
  (∀ (s : State) (b : Byte), s.st = .idle ∨ s.st = .done →
    exec (.byte b) s = .next { s with st := .fault, cause := .sequence }) ∧
  ∀ s : State, s.st = .idle ∨ s.st = .done → exec .endInput s = .next { s with st := .fault, cause := .sequence }

/-- R189: in FAULT every command word, legal or not, is ignored and CAUSE keeps its value; only a reset leaves
FAULT, and it starts a new session in IDLE with no cause. -/
def Obligations.FaultIsLeftByResetOnly : Prop :=
  (∀ (s : State) (w : CmdWord) (rest : List HostAction), s.st = .fault → s.host = .command w :: rest →
    step s = .next { s with host := rest }) ∧
  (∀ (s : State) (i : Instr), s.st = .fault → exec i s = .next s) ∧
  ∀ s t : State, s.st = .fault → step s = .next t →
    (t.st = .fault ∧ t.cause = s.cause) ∨ (s.ResetsNext ∧ t.st = .idle ∧ t.cause = .noFault)

/-- R162: the sequencing table, entry by entry, where the sink accepts every byte. -/
def Obligations.SequencingTable : Prop :=
  ∀ (s : State) (i : Instr), (∀ a ∈ s.sink, a = SinkAnswer.accept) →
    ∃ t, exec i s = .next t ∧
      match s.st, i with
      | .idle, .start => t.st = .stream ∧ t.cause = s.cause
      | .idle, .byte _ => t.st = .fault ∧ t.cause = .sequence
      | .idle, .endInput => t.st = .fault ∧ t.cause = .sequence
      | .stream, .start => t.st = .fault ∧ t.cause = .sequence
      | .stream, .byte _ => t.st = .stream ∧ t.cause = s.cause
      | .stream, .endInput => t.st = .done ∧ t.cause = s.cause
      | .done, .start => t.st = .fault ∧ t.cause = .sequence
      | .done, .byte _ => t.st = .fault ∧ t.cause = .sequence
      | .done, .endInput => t.st = .fault ∧ t.cause = .sequence
      | .fault, .start => t = s
      | .fault, .byte _ => t = s
      | .fault, .endInput => t = s

/-- R162, R189, R201: the only events that change ST, over every state and every host action. -/
def Obligations.OnlyTheseEventsChangeSt : Prop :=
  ∀ s t : State, step s = .next t → t.st ≠ s.st →
    (s.ResetsNext ∧ t.st = .idle) ∨
    (∃ rest, s.host = .command 0x1000 :: rest ∧ s.st = .idle ∧ t.st = .stream) ∨
    (∃ rest, s.host = .command 0x3000 :: rest ∧ s.st = .stream ∧ t.st = .done) ∨
    (∃ w rest, s.host = .command w :: rest ∧ s.st ≠ .fault ∧ t.st = .fault ∧ t.cause ≠ .noFault)

/-- R207, R196: every step answers a next state, and with nothing to do the engine keeps all state. -/
def Obligations.EveryStepCompletes : Prop :=
  (∀ s : State, ∃ t, step s = .next t) ∧ ∀ s : State, s.host = [] → step s = .next s

/-! Reset and STATUS. -/

/-- R44: every field after reset, for both values of FIRST_WIDTH, every entry of D, and STATUS. -/
def Obligations.ResetValues : Prop :=
  ∀ c : Config,
    let s := State.resetWith c
    s.st = .idle ∧ s.cause = .noFault ∧
    (∀ k : Code, dictRead s.dict k =
      if k.toNat < 256 then .str [BitVec.ofNat 8 k.toNat] else if k.toNat = 256 then .reserved else .empty) ∧
    s.next.toNat = 257 ∧ s.cand = [] ∧ s.pend = none ∧ s.acc.toNat = 0 ∧ s.cnt.toNat = 0 ∧
    s.width.toNat = (match c.firstWidth with | .eight => 8 | .nine => 9) ∧ s.out = [] ∧
    s.status = (match c.firstWidth with | .eight => 0x01010000 | .nine => 0x01012000)

/-- R200: the reset action sets every engine field to its reset value, in every state (R201), and writes
nothing to the sink. -/
def Obligations.ResetActionFromAnyState : Prop :=
  ∀ (s : State) (rest : List HostAction), s.host = .reset :: rest →
    step s = .next { State.resetWith s.cfg with
      host := rest, sink := s.sink, delivered := s.delivered, reads := s.reads, draws := s.draws }

/-- R32: the STATUS word as a number, field by field at its bit position; the reserved bits 15:14 and 31:26
are zero. After a SINK_ERROR: `SinkErrorStopsTheCommand`. -/
def Obligations.StatusWordLayout : Prop :=
  ∀ s : State, ¬(s.st = .fault ∧ s.cause = .sinkError) →
    s.status.toNat =
      (match s.st with | .idle => 0 | .stream => 1 | .done => 2 | .fault => 3) +
      2 ^ 2 * (if s.next.toNat = 512 then 1 else 0) +
      2 ^ 3 * (match s.pend with | none => 0 | some _ => 1) +
      2 ^ 4 * (match s.cause with | .noFault => 0 | .illegalCmd => 1 | .sequence => 2 | .sinkError => 3) +
      2 ^ 8 * s.cnt.toNat + 2 ^ 13 * (if s.width.toNat = 9 then 1 else 0) + 2 ^ 16 * s.next.toNat

/-- R33: a STATUS read changes no field of the engine, in any ST; what the host gets is the STATUS of the state
(kept in `reads`, the model's own record, log entry 12). -/
def Obligations.StatusReadHasNoSideEffect : Prop :=
  ∀ (s : State) (rest : List HostAction), s.host = .readStatus :: rest →
    step s = .next { s with host := rest, reads := s.reads ++ [s.status] }

/-- From R34: DICT_FULL becomes 1 only on an insert at NEXT = 511 and stays 1 until reset; PEND_VALID becomes 1 on a
BYTE and stays 1 until reset. -/
def Obligations.FlagsRiseAndStay : Prop :=
  ∀ s t : State, s.Inv → step s = .next t → ¬ s.ResetsNext → t.cause ≠ .sinkError →
    (s.dictFull = true → t.dictFull = true ∧ t.dict = s.dict) ∧
    (s.dictFull = false → t.dictFull = true → s.next = 511 ∧ t.next = 512 ∧ dictRead t.dict 511 ≠ .empty) ∧
    (s.pendValid = true → t.pendValid = true) ∧
    ∀ b rest, s.host = .command (encode (.byte b)) :: rest → s.st = .stream → t.pendValid = true

/-! The commands. -/

/-- R163, R164: START in IDLE writes 0x1F, 0x9D, 0x89 and opens the stream, and changes nothing else; if the
sink refuses one of the three bytes the bytes before it stand in OUT and SINK_ERROR is raised. -/
def Obligations.StartWritesTheHeader : Prop :=
  (∀ s : State, s.st = .idle → s.SinkReady 3 →
    exec .start s = .next { s with
      st := .stream
      out := s.out ++ [0x1F, 0x9D, 0x89]
      delivered := s.delivered ++ [0x1F, 0x9D, 0x89]
      sink := s.sink.drop 3 }) ∧
  ∀ (s : State) (n : Nat), s.st = .idle → n < 3 → s.SinkRefusesAfter n →
    ∃ t, exec .start s = .next t ∧ t.st = .fault ∧ t.cause = .sinkError ∧
      t.out = s.out ++ [0x1F, 0x9D, 0x89].take n

/-- R120 step 3: BYTE on a hit extends the candidate and sets the pending code; nothing is emitted and nothing
else changes. -/
def Obligations.ByteHitExtendsTheMatch : Prop :=
  ∀ (s : State) (b : Byte) (k : Code), s.st = .stream → dictLookup s.dict (s.cand ++ [b]) = some k →
    exec (.byte b) s = .next { s with cand := s.cand ++ [b], pend := some k }

/-- R120 step 4: BYTE on a miss. The candidate with the byte is stored at NEXT unless the dictionary is full;
the pending code's bits join the pending ones and the whole bytes are sent; the candidate restarts at the byte
with the byte's own code pending. Nothing else changes. -/
def Obligations.ByteMissEmitsAndLearns : Prop :=
  ∀ (s : State) (b : Byte), s.Inv → s.st = .stream → s.SinkReady 2 →
    dictLookup s.dict (s.cand ++ [b]) = none →
    ∃ (k : Code) (t : State), s.pend = some k ∧ exec (.byte b) s = .next t ∧
      let q := s.pendingBits ++ codeBits s.width.toNat k.toNat
      t.pendingBits = uncutBits q ∧
      t = { s with
        dict := if s.next = 512 then s.dict else dictWrite s.dict (s.next.truncate 9) (.str (s.cand ++ [b]))
        next := if s.next = 512 then 512 else s.next + 1
        cand := [b]
        pend := some (b.zeroExtend 9)
        acc := t.acc
        cnt := BitVec.ofNat 5 (q.length % 8)
        width := 9
        out := s.out ++ cutBytes q
        delivered := s.delivered ++ cutBytes q
        sink := s.sink.drop (q.length / 8) }

/-- R166, R122: END with no byte fed sends nothing and only moves ST; with a code pending it packs that code
and then pad codes up to a byte boundary, and moves ST. Nothing else changes. -/
def Obligations.EndEmitsAndPads : Prop :=
  (∀ s : State, s.Inv → s.st = .stream → s.pend = none → exec .endInput s = .next { s with st := .done }) ∧
  ∀ (s : State) (k : Code), s.Inv → s.st = .stream → s.pend = some k → s.SinkReady 9 →
    ∃ t, exec .endInput s = .next t ∧
      let q := padBits (s.pendingBits ++ codeBits s.width.toNat k.toNat)
      q.length % 8 = 0 ∧
      t = { s with
        st := .done
        acc := t.acc
        cnt := 0
        width := 9
        out := s.out ++ cutBytes q
        delivered := s.delivered ++ cutBytes q
        sink := s.sink.drop (q.length / 8) }

/-- From R184: a sink that refuses a byte stops the command there. If with every byte accepted the command
sends `bs`, and the sink accepts n of them and refuses the next, then OUT holds the first n, ST = FAULT,
CAUSE = 3, and STATUS shows both exactly; the refused byte is delivered nowhere. THE MODEL'S INFERENCE, no words of
R184: the last two clauses, that the reserved STATUS bits 15:14 and 31:26 read 0 also then (log entry 5, DEDUCED,
unsafe). The records of the sink are the model's own (log entries 3, 13). -/
def Obligations.SinkErrorStopsTheCommand : Prop :=
  ∀ (s u : State) (i : Instr) (bs : Str) (n : Nat),
    (i = .start ∧ s.st = .idle) ∨ (i ≠ .start ∧ s.st = .stream) →
    exec i { s with sink := [] } = .next u → u.out = s.out ++ bs → n < bs.length → s.SinkRefusesAfter n →
    ∃ t, exec i s = .next t ∧ t.st = .fault ∧ t.cause = .sinkError ∧ t.out = s.out ++ bs.take n ∧
      t.delivered = s.delivered ++ bs.take n ∧ t.sink = s.sink.drop (n + 1) ∧
      t.surroundings = s.surroundings ∧
      t.status.extractLsb' 0 2 = 3 ∧ t.status.extractLsb' 4 4 = 3 ∧
      t.status.extractLsb' 14 2 = 0 ∧ t.status.extractLsb' 26 6 = 0

/-- R60: the frame of the three commands, in every state and whatever they do short of a SINK_ERROR. START
touches no register; BYTE writes no entry of D but the one at NEXT, and where it finds the string it looks
for, or runs outside STREAM, neither D, NEXT, the packer nor OUT; END touches neither D, NEXT, S nor PEND. No
command touches the parameter, the host's list or what it has read. -/
def Obligations.CommandFrames : Prop :=
  (∀ (s t : State) (i : Instr), exec i s = .next t → t.surroundings = s.surroundings) ∧
  (∀ s t : State, exec .start s = .next t → t.cause ≠ .sinkError →
    t.registers = s.registers ∧ t.draws = s.draws) ∧
  (∀ (s t : State) (b : Byte), exec (.byte b) s = .next t → t.cause ≠ .sinkError →
    (t.st = s.st ∨ (t.st = .fault ∧ s.st ≠ .stream)) ∧ t.draws = s.draws ∧
    (∀ c : Code, c.toNat ≠ s.next.toNat → dictRead t.dict c = dictRead s.dict c) ∧
    (s.st ≠ .stream → t.registers = s.registers ∧ t.out = s.out) ∧
    (dictLookup s.dict (s.cand ++ [b]) ≠ none →
      t.dict = s.dict ∧ t.next = s.next ∧ t.acc = s.acc ∧ t.cnt = s.cnt ∧ t.width = s.width ∧ t.out = s.out)) ∧
  ∀ s t : State, exec .endInput s = .next t → t.cause ≠ .sinkError →
    t.dict = s.dict ∧ t.next = s.next ∧ t.cand = s.cand ∧ t.pend = s.pend ∧ t.draws = s.draws ∧
    (s.st ≠ .stream → t.registers = s.registers ∧ t.out = s.out)

/-- How many bytes each command sends (R125, which the spec derives from R120, R122 and R140), where the sink
accepts them all. BYTE: none on a hit; on a miss one for a session's first code at width 8, and otherwise one, or two when 7 bits were pending. END: none with
no byte fed; one for a first code at width 8; and otherwise 9 less the pending count. START: three. -/
def Obligations.BytesSentPerCommand : Prop :=
  ∀ (s t : State) (i : Instr), s.Inv → (∀ a ∈ s.sink, a = SinkAnswer.accept) → exec i s = .next t →
    (s.st = .idle → i = .start → t.out.length = s.out.length + 3) ∧
    (s.st = .stream → ∀ b, i = .byte b → t.out.length = s.out.length +
      if dictLookup s.dict (s.cand ++ [b]) ≠ none then 0
      else if s.width = 9 ∧ s.cnt.toNat = 7 then 2 else 1) ∧
    (s.st = .stream → i = .endInput → t.out.length = s.out.length +
      if s.pend = none then 0 else if s.width = 8 then 1 else 9 - s.cnt.toNat)

/-! The dictionary. -/

/-- R101: DICT_LOOKUP is exact equality. It answers the first code whose entry is the string, NotFound exactly
when none is; and in a dictionary that meets its invariant a single byte is found at its own code, the empty
string nowhere, and never is 256 or a code at or past NEXT answered. -/
def Obligations.LookupIsExactEquality : Prop :=
  (∀ (d : Dict) (v : Str) (c : Code), dictLookup d v = some c ↔
    dictRead d c = .str v ∧ ∀ a : Code, a.toNat < c.toNat → dictRead d a ≠ .str v) ∧
  (∀ (d : Dict) (v : Str), dictLookup d v = none ↔ ∀ c, dictRead d c ≠ .str v) ∧
  ∀ (d : Dict) (n : BitVec 10), DictInv d n →
    (∀ b : Byte, dictLookup d [b] = some (b.zeroExtend 9)) ∧ dictLookup d [] = none ∧
    ∀ (v : Str) (c : Code), dictLookup d v = some c → c.toNat ≠ 256 ∧ c.toNat < n.toNat

/-- R102: DICT_INSERT stores the string at NEXT, advances NEXT and answers the code, leaving every other entry
and field alone; at NEXT = 512 it answers Full and changes nothing. DICT_FULL rises when the insert sets NEXT to
512. The store keeps its canonical form. -/
def Obligations.InsertAssignsTheNextSlot : Prop :=
  (∀ (v : Str) (s : State), s.next.toNat < 512 → dictWf s.dict = true →
    ∃ t, dictInsert v s = (.assigned (BitVec.ofNat 9 s.next.toNat), t) ∧
      t = { s with dict := t.dict, next := t.next } ∧ t.next.toNat = s.next.toNat + 1 ∧ dictWf t.dict = true ∧
      dictRead t.dict (BitVec.ofNat 9 s.next.toNat) = .str v ∧
      (∀ c : Code, c.toNat ≠ s.next.toNat → dictRead t.dict c = dictRead s.dict c) ∧
      (t.dictFull = true ↔ s.next.toNat = 511)) ∧
  ∀ (v : Str) (s : State), 512 ≤ s.next.toNat → dictInsert v s = (.full, s)

/-- R103, R181: a full dictionary is no fault. A miss then still emits the pending code and restarts the
candidate, with D frozen and NEXT still 512. -/
def Obligations.FullDictionaryKeepsEncoding : Prop :=
  ∀ (s : State) (b : Byte) (k : Code), s.st = .stream → s.next = 512 → s.pend = some k →
    dictLookup s.dict (s.cand ++ [b]) = none → s.width = 9 → s.cnt.toNat ≤ 7 → s.SinkReady 2 →
    ∃ t, exec (.byte b) s = .next t ∧ t.st = .stream ∧ t.cause = s.cause ∧ t.dict = s.dict ∧ t.next = 512 ∧
      t.dictFull = true ∧ t.cand = [b] ∧ t.pend = dictLookup s.dict [b] ∧
      t.out = s.out ++ cutBytes (s.pendingBits ++ codeBits 9 k.toNat) ∧
      t.pendingBits = uncutBits (s.pendingBits ++ codeBits 9 k.toNat)

/-- R23, R24, R52: a stored string is immutable and never removed, and NEXT never falls and never passes 512,
over every step but a reset or one that ends in SINK_ERROR. -/
def Obligations.StoredStringsNeverChange : Prop :=
  ∀ s t : State, s.Inv → step s = .next t → ¬ s.ResetsNext → t.cause ≠ .sinkError →
    s.next.toNat ≤ t.next.toNat ∧ t.next.toNat ≤ 512 ∧
    ∀ (c : Code) (v : Str), dictRead s.dict c = .str v → dictRead t.dict c = .str v

/-- Prefix closure (10_state.md R36, which the spec derives from R102 and R120): every non-empty proper prefix
of a stored string is stored at a smaller code. -/
def Obligations.DictionaryIsPrefixClosed : Prop :=
  ∀ (d : Dict) (n : BitVec 10) (c : Code) (u v : Str), DictInv d n → dictRead d c = .str v →
    u ≠ [] → u <+: v → u ≠ v → ∃ j : Code, j.toNat < c.toNat ∧ dictRead d j = .str u

/-- Length bounds (R37 and R107, which the spec derives from R36 and R102): a string learned at code c has at most c - 255 bytes; between commands the candidate has at most
256, and grown by a byte it has 257 only when the dictionary is full. -/
def Obligations.StringLengthsAreBounded : Prop :=
  (∀ (d : Dict) (n : BitVec 10) (c : Code) (v : Str), DictInv d n → dictRead d c = .str v → 257 ≤ c.toNat →
    v.length + 255 ≤ c.toNat) ∧
  ∀ s : State, s.EngineInv → s.cand.length ≤ 256 ∧ (s.cand.length = 256 → s.next = 512)

/-- The harmless lookup defect (R105, which the spec derives from R101 and R36): in a dictionary that meets its invariant a scan in code order that accepts the first entry with the
string as a prefix answers what exact equality answers. The engine never looks up the empty string (R101). -/
def Obligations.PrefixScanAgreesWithExactLookup : Prop :=
  ∀ (d : Dict) (n : BitVec 10) (v : Str), DictInv d n → v ≠ [] → prefixLookup d v = dictLookup d v

/-- The pair store (R106, which the spec derives from R101, R102, R36 and R38). Every learned entry is D[p] with a byte appended, for the pair (p, b) of that entry;
and looking up the candidate with a byte is a search for the pair (PEND, b), or with no candidate the byte's
own code. -/
def Obligations.PairStoreIsEquivalent : Prop :=
  (∀ (d : Dict) (n : BitVec 10) (c : Code), DictInv d n → 257 ≤ c.toNat → c.toNat < n.toNat →
    ∃ (k : Code) (b : Byte) (p : Str), entryPair d c = some (k, b) ∧ dictRead d k = .str p ∧
      dictRead d c = .str (p ++ [b])) ∧
  (∀ (s : State) (k : Code) (b : Byte), s.EngineInv → s.pend = some k →
    dictLookup s.dict (s.cand ++ [b]) = pairLookup s.dict k b) ∧
  ∀ (s : State) (b : Byte), s.EngineInv → s.pend = none →
    dictLookup s.dict (s.cand ++ [b]) = some (b.zeroExtend 9)

/-! The encoder loop. -/

/-- The emission branches (R123, which the spec derives from R120, R121 and R101): nothing is pending only before the session's first byte, which always hits; every miss has a code
pending; and no step but a reset takes PEND back to none. -/
def Obligations.EveryMissHasACodePending : Prop :=
  (∀ s : State, s.EngineInv → s.pend = none →
    s.cand = [] ∧ ∀ b : Byte, dictLookup s.dict (s.cand ++ [b]) = some (b.zeroExtend 9)) ∧
  (∀ (s : State) (b : Byte), s.EngineInv → dictLookup s.dict (s.cand ++ [b]) = none → ∃ k, s.pend = some k) ∧
  ∀ s t : State, s.Inv → step s = .next t → ¬ s.ResetsNext → t.cause ≠ .sinkError → s.pend ≠ none → t.pend ≠ none

/-- The codes emitted (R38 and R124, which the spec derives from R120 and R122): the pending code is never 256, and the session's first code, the one packed at FIRST_WIDTH, is a
literal packed with no bit pending. -/
def Obligations.EmittedCodesAreNeverThePadCode : Prop :=
  ∀ (s : State) (k : Code), s.EngineInv → s.pend = some k →
    k ≠ 256 ∧ k.toNat < s.next.toNat ∧ (s.out.length ≤ 3 → k.toNat < 256 ∧ s.cnt = 0 ∧ s.width = s.cfg.firstWidth.bits)

/-! The bit packer and the sink. -/

/-- R53: SinkWrite of a byte the sink accepts appends it and goes on; of one it refuses appends nothing and
raises SINK_ERROR. -/
def Obligations.SinkWriteAcceptsOrRaises : Prop :=
  (∀ (s : State) (b : Byte), s.SinkReady 1 →
    sinkWrite b s = .cont { s with sink := s.sink.drop 1, out := s.out ++ [b], delivered := s.delivered ++ [b] }) ∧
  ∀ (s : State) (b : Byte), s.SinkRefusesAfter 0 →
    ∃ t, sinkWrite b s = .raised t ∧ t.st = .fault ∧ t.cause = .sinkError ∧ t.out = s.out ∧
      t.delivered = s.delivered

/-- R140: PK_PUT_CODE in numbers. With n = CNT + W bits in the accumulator after the shift, it sends
ACC[n-1:n-8], and ACC[7:0] after it when n is 16; it leaves n mod 8 bits and W = 9. Where the sink refuses a
byte the rest does not run. Only the low 9 bits of x take part. -/
def Obligations.PutCodeShiftsAndSends : Prop :=
  (∀ (s : State) (x : Nat), s.cnt.toNat ≤ 7 → s.width = 8 ∨ s.width = 9 →
    let n := s.cnt.toNat + s.width.toNat
    let a := (s.acc.toNat * 2 ^ s.width.toNat) % 2 ^ 32 ||| x % 512
    let bs : Str := if n = 16 then [BitVec.ofNat 8 (a / 2 ^ 8), BitVec.ofNat 8 a] else [BitVec.ofNat 8 (a / 2 ^ (n - 8))]
    (s.SinkReady bs.length → pkPutCode x s = .cont { s with
      acc := BitVec.ofNat 32 a
      cnt := BitVec.ofNat 5 (n % 8)
      width := 9
      out := s.out ++ bs
      delivered := s.delivered ++ bs
      sink := s.sink.drop bs.length }) ∧
    ∀ k < bs.length, s.SinkRefusesAfter k →
      ∃ t, pkPutCode x s = .raised t ∧ t.st = .fault ∧ t.cause = .sinkError ∧ t.out = s.out ++ bs.take k) ∧
  ∀ (s : State) (x : Nat), pkPutCode x s = pkPutCode (x % 512) s

/-- R141: PK_PUT_STRING packs each byte's value as a code, in order, stopping where the sink refuses a byte; for
the empty string it does nothing. -/
def Obligations.PutStringPacksEachByte : Prop :=
  (∀ s : State, pkPutString [] s = .cont s) ∧
  ∀ (s : State) (v : Str) (b : Byte), pkPutString (v ++ [b]) s = (pkPutString v s).andThen (pkPutCode b.toNat)

/-- The flush table (R144, which the spec derives from R140 and R142). At width 9 with c pending bits, of value p, PK_FLUSH packs (8 - c) mod 8 pad codes;
it sends nothing when c = 0, and otherwise the byte of p followed by a 1 and zeros, then the falling powers of
two below it, then 0x00; CNT ends 0. -/
def Obligations.FlushTable : Prop :=
  ∀ s : State, s.width = 9 → s.cnt.toNat ≤ 7 → s.SinkReady 8 →
    let c := s.cnt.toNat
    let p := s.acc.toNat % 2 ^ c
    let bs : Str := if c = 0 then [] else
      BitVec.ofNat 8 (p * 2 ^ (8 - c) + 2 ^ (7 - c)) ::
        ((List.range (7 - c)).map fun i => BitVec.ofNat 8 (2 ^ (6 - c - i))) ++ [0x00]
    pkFlush s = pkPutCodes (List.replicate ((8 - c) % 8) 256) s ∧
    ∃ t, pkFlush s = .cont t ∧ t = { s with
      acc := t.acc
      cnt := 0
      out := s.out ++ bs
      delivered := s.delivered ++ bs
      sink := s.sink.drop bs.length }

/-- R142: PK_FLUSH packs the pad code while CNT is no multiple of W, testing before the first; with no bit pending
it does nothing, and in every state, with a sink that accepts, it ends, with CNT a multiple of W, and 0 where W
was 8 or 9 and CNT at most 7. -/
def Obligations.FlushEndsAtABoundary : Prop :=
  (∀ s : State, pkFlush s =
    if s.cnt.toNat % s.width.toNat ≠ 0 then (pkPutCode 256 s).andThen pkFlush else .cont s) ∧
  (∀ s : State, s.cnt = 0 → pkFlush s = .cont s) ∧
  ∀ s : State, (∀ a ∈ s.sink, a = SinkAnswer.accept) →
    ∃ t, pkFlush s = .cont t ∧ t.cnt.toNat % t.width.toNat = 0 ∧
      (s.cnt.toNat ≤ 7 → s.width = 8 ∨ s.width = 9 → t.cnt = 0)

/-- The bit queue (R145, which the spec derives from R140, R40 and R124), with the bit order of R55. Packing a
sequence of codes appends their bits, most significant first, to the pending ones; the bytes sent are the whole
groups of 8 of the result and what is left over is pending. -/
def Obligations.PackerIsABitQueue : Prop :=
  ∀ (s : State) (x : Nat) (xs : List Nat), s.cnt.toNat ≤ 7 →
    s.width = 9 ∨ (s.width = 8 ∧ x % 512 < 256) →
    let q := s.pendingBits ++ streamBits s.width.toNat (x :: xs)
    s.SinkReady (q.length / 8) →
    ∃ t, pkPutCodes (x :: xs) s = .cont t ∧ t.out = s.out ++ cutBytes q ∧ t.cnt.toNat = q.length % 8 ∧
      t.pendingBits = uncutBits q ∧ t.width = 9 ∧ t = { s with
        acc := t.acc, cnt := t.cnt, width := t.width, out := t.out
        delivered := s.delivered ++ cutBytes q, sink := s.sink.drop (q.length / 8) }

/-- Stale bits (R40, which the spec derives from R140): bits of ACC at positions CNT and above are invisible. Two states that differ in those bits alone take
every command to states that differ in such bits alone, with the same OUT. -/
def Obligations.StaleAccumulatorBitsAreInvisible : Prop :=
  ∀ (s : State) (a : BitVec 32) (i : Instr), s.cnt.toNat ≤ 7 → s.width = 8 ∨ s.width = 9 →
    a.toNat % 2 ^ s.cnt.toNat = s.acc.toNat % 2 ^ s.cnt.toNat →
    ∃ t u, exec i s = .next t ∧ exec i { s with acc := a } = .next u ∧
      u = { t with acc := u.acc } ∧ u.acc.toNat % 2 ^ t.cnt.toNat = t.acc.toNat % 2 ^ t.cnt.toNat

/-- From R206 and R54, over the model's own record `delivered` (log entry 13): bytes once delivered are final. Every step only appends to what the sink has; OUT grows by the
same bytes, or is emptied by a reset that delivers nothing. -/
def Obligations.DeliveredBytesAreFinal : Prop :=
  ∀ s t : State, step s = .next t →
    (∃ bs, t.out = s.out ++ bs ∧ t.delivered = s.delivered ++ bs) ∨
    (s.ResetsNext ∧ t.out = [] ∧ t.delivered = s.delivered)

/-! The machine. -/

/-- The invariant holds after reset, for both values of FIRST_WIDTH. -/
def Obligations.InvariantHoldsAtReset : Prop :=
  (∀ c : Config, (State.resetWith c).Inv) ∧ State.reset.Inv

/-- The invariants of 10_state.md (R22, R23, R24, R29, R57, R77, R183; and R35, R36, R38, R39, R41, which the spec
derives): from every state that meets the invariant every step leads to one
that meets it, whatever the host does and whatever the sink answers. -/
def Obligations.StepKeepsTheInvariant : Prop :=
  ∀ s t : State, s.Inv → step s = .next t → t.Inv

/-- From R43 and R7: no field is carried from one session into the next. Two engines of the same FIRST_WIDTH, in any
two states, given the same reset, the same actions after it and the same answers of the sink, show the same ST,
CAUSE and OUT after any number of steps, and but after a SINK_ERROR the same registers. -/
def Obligations.SessionsShareNothing : Prop :=
  ∀ (s s' t t' : State) (n : Nat), s.ResetsNext → s.host = s'.host → s.sink = s'.sink → s.cfg = s'.cfg →
    core.run (n + 1) s = .next t → core.run (n + 1) s' = .next t' →
    t.st = t'.st ∧ t.cause = t'.cause ∧ t.out = t'.out ∧
      (t.cause ≠ .sinkError → t.registers = t'.registers ∧ t.status = t'.status)

/-- R79, R124, R203, R204: a whole session, for every input. From any state, a reset, START, one BYTE per input
byte and END, with a sink that accepts, end the session well, and OUT is then exactly the header and the padded
stream of the input's longest-match codes, computed from the rules on strings and codes alone. -/
def Obligations.SessionOutputIsTheCodeStream : Prop :=
  ∀ (s : State) (input : Str) (rest : List HostAction), s.host = .reset :: sessionActions input ++ rest →
    (∀ a ∈ s.sink, a = SinkAnswer.accept) →
    ∃ t, core.run (input.length + 3) s = .next t ∧ t.EndedWell ∧ t.host = rest ∧
      t.out = refOutput s.cfg.firstWidth input

/-- From R81: START, END and RESET; BYTE with every spelling of its byte (hexadecimal, decimal, a quoted ASCII
character); BYTES of a text and of a list of hexadecimal bytes; ENCODE of a text; a comment after any line that
assembles; and a listing, its lines in order. A text is ASCII without a double quote. THE MODEL'S CHOICES, no words of
R81 (log entry 19, DESIGN CHOICE): clauses 2 and 4, that hexadecimal digits may be small letters; clause 2, that a
quoted character may be any ASCII one, a quote or a semicolon too; clause 3, that a text may hold a semicolon (no
comment starts in it) and any other ASCII character, and has no escapes; clauses 2 to 4, the blanks; clauses 5 and 6,
that they hold of every line the model assembles, also of a blank one, a comment alone or a bare word, and that a
comment may follow with no blank between. -/
def Obligations.AssemblySyntax : Prop :=
  (assembleLine "START".toList = some [.command 0x1000] ∧ assembleLine "END".toList = some [.command 0x3000] ∧
    assembleLine "RESET".toList = some [.reset]) ∧
  (∀ (b : Byte), ∀ t ∈ immTexts b, assembleLine ("BYTE ".toList ++ t) = some [.command (encode (.byte b))]) ∧
  (∀ text : List Char, (∀ c ∈ text, c.toNat < 128 ∧ c ≠ '"') →
    let bs : Str := text.map fun c => BitVec.ofNat 8 c.toNat
    assembleLine ("BYTES \"".toList ++ text ++ ['"']) = some (byteWords bs) ∧
    assembleLine ("ENCODE \"".toList ++ text ++ ['"']) = some (sessionActions bs)) ∧
  (∀ l : List (Byte × List Char), l ≠ [] → (∀ p ∈ l, p.2 ∈ hexTexts p.1) →
    assembleLine ("BYTES ".toList ++ commaList (l.map Prod.snd)) = some (byteWords (l.map Prod.fst))) ∧
  (∀ (line comment : List Char) (as : List HostAction), assembleLine line = some as →
    assembleLine (line ++ ';' :: comment) = some as) ∧
  ∀ lines more : List (List Char),
    assemble (lines ++ more) = (assemble lines).bind fun as => (assemble more).map (as ++ ·)
end

