-- ==== Sys2Proof/Laws/State.lean ====
section
/-! SUPPORT. One lemma per field of State per named update, so that no proof unfolds an update. -/

namespace Sys2Proof.Machine

@[simp] theorem acceptByte_st (b : Byte) (s : State) : (acceptByte b s).st = s.st := rfl
@[simp] theorem acceptByte_cause (b : Byte) (s : State) : (acceptByte b s).cause = s.cause := rfl
@[simp] theorem acceptByte_dict (b : Byte) (s : State) : (acceptByte b s).dict = s.dict := rfl
@[simp] theorem acceptByte_next (b : Byte) (s : State) : (acceptByte b s).next = s.next := rfl
@[simp] theorem acceptByte_cand (b : Byte) (s : State) : (acceptByte b s).cand = s.cand := rfl
@[simp] theorem acceptByte_pend (b : Byte) (s : State) : (acceptByte b s).pend = s.pend := rfl
@[simp] theorem acceptByte_acc (b : Byte) (s : State) : (acceptByte b s).acc = s.acc := rfl
@[simp] theorem acceptByte_cnt (b : Byte) (s : State) : (acceptByte b s).cnt = s.cnt := rfl
@[simp] theorem acceptByte_width (b : Byte) (s : State) : (acceptByte b s).width = s.width := rfl
@[simp] theorem acceptByte_out (b : Byte) (s : State) : (acceptByte b s).out = s.out ++ [b] := rfl
@[simp] theorem acceptByte_cfg (b : Byte) (s : State) : (acceptByte b s).cfg = s.cfg := rfl
@[simp] theorem acceptByte_host (b : Byte) (s : State) : (acceptByte b s).host = s.host := rfl
@[simp] theorem acceptByte_sink (b : Byte) (s : State) : (acceptByte b s).sink = s.sink.tail := rfl
@[simp] theorem acceptByte_delivered (b : Byte) (s : State) : (acceptByte b s).delivered = s.delivered ++ [b] := rfl
@[simp] theorem acceptByte_reads (b : Byte) (s : State) : (acceptByte b s).reads = s.reads := rfl
@[simp] theorem acceptByte_draws (b : Byte) (s : State) : (acceptByte b s).draws = s.draws := rfl

@[simp] theorem unspecified_st (s : State) : (unspecified s).st = s.st := by simp only [unspecified]
@[simp] theorem unspecified_cause (s : State) : (unspecified s).cause = s.cause := by simp only [unspecified]
@[simp] theorem unspecified_dict (s : State) : (unspecified s).dict = dictOf (Config.freeEntry s.draws) := by simp only [unspecified]
@[simp] theorem unspecified_next (s : State) : (unspecified s).next = Config.freeNext s.draws := by simp only [unspecified]
@[simp] theorem unspecified_cand (s : State) : (unspecified s).cand = Config.freeCand s.draws := by simp only [unspecified]
@[simp] theorem unspecified_pend (s : State) : (unspecified s).pend = Config.freePend s.draws := by simp only [unspecified]
@[simp] theorem unspecified_acc (s : State) : (unspecified s).acc = Config.freeAcc s.draws := by simp only [unspecified]
@[simp] theorem unspecified_cnt (s : State) : (unspecified s).cnt = Config.freeCnt s.draws := by simp only [unspecified]
@[simp] theorem unspecified_width (s : State) : (unspecified s).width = Config.freeWidth s.draws := by simp only [unspecified]
@[simp] theorem unspecified_out (s : State) : (unspecified s).out = s.out := by simp only [unspecified]
@[simp] theorem unspecified_cfg (s : State) : (unspecified s).cfg = s.cfg := by simp only [unspecified]
@[simp] theorem unspecified_host (s : State) : (unspecified s).host = s.host := by simp only [unspecified]
@[simp] theorem unspecified_sink (s : State) : (unspecified s).sink = s.sink := by simp only [unspecified]
@[simp] theorem unspecified_delivered (s : State) : (unspecified s).delivered = s.delivered := by simp only [unspecified]
@[simp] theorem unspecified_reads (s : State) : (unspecified s).reads = s.reads := by simp only [unspecified]
@[simp] theorem unspecified_draws (s : State) : (unspecified s).draws = s.draws + 1 := by simp only [unspecified]

@[simp] theorem dictInit_st (s : State) : (dictInit s).st = s.st := rfl
@[simp] theorem dictInit_cause (s : State) : (dictInit s).cause = s.cause := rfl
@[simp] theorem dictInit_dict (s : State) : (dictInit s).dict = [] := rfl
@[simp] theorem dictInit_next (s : State) : (dictInit s).next = 257 := rfl
@[simp] theorem dictInit_cand (s : State) : (dictInit s).cand = s.cand := rfl
@[simp] theorem dictInit_pend (s : State) : (dictInit s).pend = s.pend := rfl
@[simp] theorem dictInit_acc (s : State) : (dictInit s).acc = s.acc := rfl
@[simp] theorem dictInit_cnt (s : State) : (dictInit s).cnt = s.cnt := rfl
@[simp] theorem dictInit_width (s : State) : (dictInit s).width = s.width := rfl
@[simp] theorem dictInit_out (s : State) : (dictInit s).out = s.out := rfl
@[simp] theorem dictInit_cfg (s : State) : (dictInit s).cfg = s.cfg := rfl
@[simp] theorem dictInit_host (s : State) : (dictInit s).host = s.host := rfl
@[simp] theorem dictInit_sink (s : State) : (dictInit s).sink = s.sink := rfl
@[simp] theorem dictInit_delivered (s : State) : (dictInit s).delivered = s.delivered := rfl
@[simp] theorem dictInit_reads (s : State) : (dictInit s).reads = s.reads := rfl
@[simp] theorem dictInit_draws (s : State) : (dictInit s).draws = s.draws := rfl

@[simp] theorem resetEngine_st (s : State) : (resetEngine s).st = .idle := rfl
@[simp] theorem resetEngine_cause (s : State) : (resetEngine s).cause = .noFault := rfl
@[simp] theorem resetEngine_dict (s : State) : (resetEngine s).dict = [] := rfl
@[simp] theorem resetEngine_next (s : State) : (resetEngine s).next = 257 := rfl
@[simp] theorem resetEngine_cand (s : State) : (resetEngine s).cand = [] := rfl
@[simp] theorem resetEngine_pend (s : State) : (resetEngine s).pend = none := rfl
@[simp] theorem resetEngine_acc (s : State) : (resetEngine s).acc = 0 := rfl
@[simp] theorem resetEngine_cnt (s : State) : (resetEngine s).cnt = 0 := rfl
@[simp] theorem resetEngine_width (s : State) : (resetEngine s).width = s.cfg.firstWidth.bits := rfl
@[simp] theorem resetEngine_out (s : State) : (resetEngine s).out = [] := rfl
@[simp] theorem resetEngine_cfg (s : State) : (resetEngine s).cfg = s.cfg := rfl
@[simp] theorem resetEngine_host (s : State) : (resetEngine s).host = s.host := rfl
@[simp] theorem resetEngine_sink (s : State) : (resetEngine s).sink = s.sink := rfl
@[simp] theorem resetEngine_delivered (s : State) : (resetEngine s).delivered = s.delivered := rfl
@[simp] theorem resetEngine_reads (s : State) : (resetEngine s).reads = s.reads := rfl
@[simp] theorem resetEngine_draws (s : State) : (resetEngine s).draws = s.draws := rfl

@[simp] theorem readStatus_st (s : State) : (readStatus s).st = s.st := rfl
@[simp] theorem readStatus_cause (s : State) : (readStatus s).cause = s.cause := rfl
@[simp] theorem readStatus_dict (s : State) : (readStatus s).dict = s.dict := rfl
@[simp] theorem readStatus_next (s : State) : (readStatus s).next = s.next := rfl
@[simp] theorem readStatus_cand (s : State) : (readStatus s).cand = s.cand := rfl
@[simp] theorem readStatus_pend (s : State) : (readStatus s).pend = s.pend := rfl
@[simp] theorem readStatus_acc (s : State) : (readStatus s).acc = s.acc := rfl
@[simp] theorem readStatus_cnt (s : State) : (readStatus s).cnt = s.cnt := rfl
@[simp] theorem readStatus_width (s : State) : (readStatus s).width = s.width := rfl
@[simp] theorem readStatus_out (s : State) : (readStatus s).out = s.out := rfl
@[simp] theorem readStatus_cfg (s : State) : (readStatus s).cfg = s.cfg := rfl
@[simp] theorem readStatus_host (s : State) : (readStatus s).host = s.host := rfl
@[simp] theorem readStatus_sink (s : State) : (readStatus s).sink = s.sink := rfl
@[simp] theorem readStatus_delivered (s : State) : (readStatus s).delivered = s.delivered := rfl
@[simp] theorem readStatus_reads (s : State) : (readStatus s).reads = s.reads ++ [s.status] := rfl
@[simp] theorem readStatus_draws (s : State) : (readStatus s).draws = s.draws := rfl

@[simp] theorem issueWord_st (w : CmdWord) (s : State) : (issueWord w s).st = s.st := rfl
@[simp] theorem issueWord_cause (w : CmdWord) (s : State) : (issueWord w s).cause = s.cause := rfl
@[simp] theorem issueWord_dict (w : CmdWord) (s : State) : (issueWord w s).dict = s.dict := rfl
@[simp] theorem issueWord_next (w : CmdWord) (s : State) : (issueWord w s).next = s.next := rfl
@[simp] theorem issueWord_cand (w : CmdWord) (s : State) : (issueWord w s).cand = s.cand := rfl
@[simp] theorem issueWord_pend (w : CmdWord) (s : State) : (issueWord w s).pend = s.pend := rfl
@[simp] theorem issueWord_acc (w : CmdWord) (s : State) : (issueWord w s).acc = s.acc := rfl
@[simp] theorem issueWord_cnt (w : CmdWord) (s : State) : (issueWord w s).cnt = s.cnt := rfl
@[simp] theorem issueWord_width (w : CmdWord) (s : State) : (issueWord w s).width = s.width := rfl
@[simp] theorem issueWord_out (w : CmdWord) (s : State) : (issueWord w s).out = s.out := rfl
@[simp] theorem issueWord_cfg (w : CmdWord) (s : State) : (issueWord w s).cfg = s.cfg := rfl
@[simp] theorem issueWord_host (w : CmdWord) (s : State) : (issueWord w s).host = .command w :: s.host := rfl
@[simp] theorem issueWord_sink (w : CmdWord) (s : State) : (issueWord w s).sink = s.sink := rfl
@[simp] theorem issueWord_delivered (w : CmdWord) (s : State) : (issueWord w s).delivered = s.delivered := rfl
@[simp] theorem issueWord_reads (w : CmdWord) (s : State) : (issueWord w s).reads = s.reads := rfl
@[simp] theorem issueWord_draws (w : CmdWord) (s : State) : (issueWord w s).draws = s.draws := rfl

/-- A precise fault changes ST and CAUSE and nothing else (R185, R186, R188). -/
theorem raiseFault_precise (c : Cause) (s : State) (h : c ≠ .sinkError) :
    raiseFault c s = { s with st := .fault, cause := c } := by
  simp [raiseFault, h]

/-- SINK_ERROR: ST and CAUSE are set and the rest is unspecified (R184). -/
theorem raiseFault_sinkError (s : State) :
    raiseFault .sinkError s = unspecified { s with st := .fault, cause := .sinkError } := rfl

@[simp] theorem raiseFault_st (c : Cause) (s : State) : (raiseFault c s).st = .fault := by
  unfold raiseFault; split <;> simp
@[simp] theorem raiseFault_cause (c : Cause) (s : State) : (raiseFault c s).cause = c := by
  unfold raiseFault; split <;> simp
@[simp] theorem raiseFault_out (c : Cause) (s : State) : (raiseFault c s).out = s.out := by
  unfold raiseFault; split <;> simp
@[simp] theorem raiseFault_cfg (c : Cause) (s : State) : (raiseFault c s).cfg = s.cfg := by
  unfold raiseFault; split <;> simp
@[simp] theorem raiseFault_host (c : Cause) (s : State) : (raiseFault c s).host = s.host := by
  unfold raiseFault; split <;> simp
@[simp] theorem raiseFault_sink (c : Cause) (s : State) : (raiseFault c s).sink = s.sink := by
  unfold raiseFault; split <;> simp
@[simp] theorem raiseFault_delivered (c : Cause) (s : State) : (raiseFault c s).delivered = s.delivered := by
  unfold raiseFault; split <;> simp
@[simp] theorem raiseFault_reads (c : Cause) (s : State) : (raiseFault c s).reads = s.reads := by
  unfold raiseFault; split <;> simp

@[simp] theorem andThen_cont (s : State) (f : State → Flow) : (Flow.cont s).andThen f = f s := rfl
@[simp] theorem andThen_raised (s : State) (f : State → Flow) : (Flow.raised s).andThen f = .raised s := rfl
@[simp] theorem state_cont (s : State) : (Flow.cont s).state = s := rfl
@[simp] theorem state_raised (s : State) : (Flow.raised s).state = s := rfl

theorem andThen_assoc (r : Flow) (f g : State → Flow) :
    (r.andThen f).andThen g = r.andThen fun s => (f s).andThen g := by
  cases r <;> rfl

/-- A run of two operations goes on only if both do. -/
theorem andThen_eq_cont (r : Flow) (f : State → Flow) (t : State) :
    r.andThen f = .cont t ↔ ∃ s, r = .cont s ∧ f s = .cont t := by
  cases r <;> simp

/-- A run of two operations raises a fault in the first, or in the second after the first. -/
theorem andThen_eq_raised (r : Flow) (f : State → Flow) (t : State) :
    r.andThen f = .raised t ↔ r = .raised t ∨ ∃ s, r = .cont s ∧ f s = .raised t := by
  cases r <;> simp

end Sys2Proof.Machine
end

