-- ==== Sys2Proof/Laws/Sink.lean ====
section
/-! SUPPORT. The sink: all that a run of SinkWrites can do, for any answers of the sink. -/

namespace Sys2Proof.Machine

/-- The sink has accepted the bytes. -/
def acceptBytes (bs : List Byte) (s : State) : State :=
  { s with sink := s.sink.drop bs.length, out := s.out ++ bs, delivered := s.delivered ++ bs }

@[simp] theorem acceptBytes_nil (s : State) : acceptBytes [] s = s := by
  simp [acceptBytes]

theorem acceptBytes_append (a b : List Byte) (s : State) :
    acceptBytes b (acceptBytes a s) = acceptBytes (a ++ b) s := by
  simp [acceptBytes, List.append_assoc]

theorem acceptByte_eq (b : Byte) (s : State) : acceptByte b s = acceptBytes [b] s := by
  simp [acceptByte, acceptBytes]

/-- Which of the next `n` bytes offered the sink refuses first, if any. -/
def refusalWithin : Nat → List SinkAnswer → Option Nat
  | 0, _ => none
  | _ + 1, [] => none
  | _ + 1, .refuse :: _ => some 0
  | n + 1, .accept :: rest => (refusalWithin n rest).map (· + 1)

theorem refusalWithin_none {n : Nat} {l : List SinkAnswer} :
    refusalWithin n l = none ↔ ∀ a ∈ l.take n, a = SinkAnswer.accept := by
  induction l generalizing n with
  | nil => cases n <;> simp [refusalWithin]
  | cons a l ih => cases n <;> cases a <;> simp [refusalWithin, ih]

theorem refusalWithin_some {n k : Nat} {l : List SinkAnswer} :
    refusalWithin n l = some k ↔ k < n ∧ (∀ a ∈ l.take k, a = SinkAnswer.accept) ∧ l[k]? = some .refuse := by
  induction l generalizing n k with
  | nil => cases n <;> simp [refusalWithin]
  | cons a l ih =>
    cases n with
    | zero => simp [refusalWithin]
    | succ n => cases k <;> cases a <;> simp [refusalWithin, ih]

/-- A run of SinkWrites: the sink accepts all the bytes, or the bytes before the first it refuses, and then
SINK_ERROR is raised (R53, R184). -/
theorem sinkWrites_eq (bs : List Byte) (s : State) :
    sinkWrites bs s = match refusalWithin bs.length s.sink with
      | none => .cont (acceptBytes bs s)
      | some k => .raised (refuseByte (acceptBytes (bs.take k) s)) := by
  induction bs generalizing s with
  | nil => simp [sinkWrites, refusalWithin]
  | cons b bs ih =>
    rw [sinkWrites, sinkWrite]
    rcases hs : s.sink with _ | ⟨a, rest⟩
    · have := ih (acceptByte b s)
      simp [hs] at this
      cases bs <;> simp_all [refusalWithin, acceptByte_eq, acceptBytes_append]
    · cases a
      · have := ih (acceptByte b s)
        simp only [acceptByte_sink, hs, List.tail_cons] at this
        simp only [List.head?_cons, andThen_cont, this, List.length_cons, refusalWithin]
        cases refusalWithin bs.length rest <;> simp [acceptByte_eq, acceptBytes_append]
      · simp [refusalWithin]

/-- Where the sink is ready, a run of SinkWrites goes on. -/
theorem sinkWrites_ready {bs : List Byte} {s : State} (h : s.SinkReady bs.length) :
    sinkWrites bs s = .cont (acceptBytes bs s) := by
  rw [sinkWrites_eq, refusalWithin_none.2 h]

theorem sinkWrites_append (a b : List Byte) (s : State) :
    (sinkWrites a s).andThen (sinkWrites b) = sinkWrites (a ++ b) s := by
  induction a generalizing s with
  | nil => rfl
  | cons x a ih => simp only [List.cons_append, sinkWrites, andThen_assoc, ih]

/-- What a refused byte leaves does not depend on what it leaves unspecified. -/
theorem refuseByte_congr {s t : State} (hout : s.out = t.out) (hcfg : s.cfg = t.cfg) (hhost : s.host = t.host)
    (hsink : s.sink = t.sink) (hdel : s.delivered = t.delivered) (hreads : s.reads = t.reads)
    (hdraws : s.draws = t.draws) : refuseByte s = refuseByte t := by
  simp only [refuseByte, raiseFault_sinkError, unspecified, hout, hcfg, hhost, hsink, hdel, hreads, hdraws]

end Sys2Proof.Machine
end

