-- ==== Sys2Proof/Laws/Packer.lean ====
section
/-! SUPPORT. The Bit Packer: every one of its operations is one run of SinkWrites of bytes that depend on
the three packer registers alone, followed by new values of those registers. -/

namespace Sys2Proof.Machine

/-- The Bit Packer's registers (R20). -/
structure PackRegs where
  acc : BitVec 32
  cnt : BitVec 5
  width : BitVec 4

def State.pack (s : State) : PackRegs :=
  { acc := s.acc, cnt := s.cnt, width := s.width }

def State.withPack (s : State) (p : PackRegs) : State :=
  { s with acc := p.acc, cnt := p.cnt, width := p.width }

@[simp] theorem withPack_pack (s : State) : s.withPack s.pack = s := rfl
@[simp] theorem pack_withPack (s : State) (p : PackRegs) : (s.withPack p).pack = p := rfl
@[simp] theorem withPack_withPack (s : State) (p q : PackRegs) : (s.withPack p).withPack q = s.withPack q := rfl
@[simp] theorem pack_acceptBytes (bs : List Byte) (s : State) : (acceptBytes bs s).pack = s.pack := rfl
@[simp] theorem withPack_st (s : State) (p : PackRegs) : (s.withPack p).st = s.st := rfl
@[simp] theorem withPack_cause (s : State) (p : PackRegs) : (s.withPack p).cause = s.cause := rfl
@[simp] theorem withPack_dict (s : State) (p : PackRegs) : (s.withPack p).dict = s.dict := rfl
@[simp] theorem withPack_next (s : State) (p : PackRegs) : (s.withPack p).next = s.next := rfl
@[simp] theorem withPack_cand (s : State) (p : PackRegs) : (s.withPack p).cand = s.cand := rfl
@[simp] theorem withPack_pend (s : State) (p : PackRegs) : (s.withPack p).pend = s.pend := rfl
@[simp] theorem withPack_acc (s : State) (p : PackRegs) : (s.withPack p).acc = p.acc := rfl
@[simp] theorem withPack_cnt (s : State) (p : PackRegs) : (s.withPack p).cnt = p.cnt := rfl
@[simp] theorem withPack_width (s : State) (p : PackRegs) : (s.withPack p).width = p.width := rfl
@[simp] theorem withPack_out (s : State) (p : PackRegs) : (s.withPack p).out = s.out := rfl
@[simp] theorem withPack_cfg (s : State) (p : PackRegs) : (s.withPack p).cfg = s.cfg := rfl
@[simp] theorem withPack_host (s : State) (p : PackRegs) : (s.withPack p).host = s.host := rfl
@[simp] theorem withPack_sink (s : State) (p : PackRegs) : (s.withPack p).sink = s.sink := rfl
@[simp] theorem withPack_delivered (s : State) (p : PackRegs) : (s.withPack p).delivered = s.delivered := rfl
@[simp] theorem withPack_reads (s : State) (p : PackRegs) : (s.withPack p).reads = s.reads := rfl
@[simp] theorem withPack_draws (s : State) (p : PackRegs) : (s.withPack p).draws = s.draws := rfl

/-! Sending bytes and then setting the registers. -/

/-- Send the bytes; if the sink took them all, the packer's registers take new values. -/
def emit (bs : List Byte) (p : PackRegs) (s : State) : Flow :=
  (sinkWrites bs s).andThen fun t => .cont (t.withPack p)

theorem sinkWrites_withPack (bs : List Byte) (p : PackRegs) (s : State) :
    sinkWrites bs (s.withPack p) = emit bs p s := by
  rw [emit, sinkWrites_eq, sinkWrites_eq, withPack_sink]
  cases refusalWithin bs.length s.sink with
  | none => rfl
  | some k => exact congrArg Flow.raised (by apply refuseByte_congr <;> rfl)

/-- All that an emission can do. -/
theorem emit_eq (bs : List Byte) (p : PackRegs) (s : State) :
    emit bs p s = match refusalWithin bs.length s.sink with
      | none => .cont ((acceptBytes bs s).withPack p)
      | some k => .raised (refuseByte (acceptBytes (bs.take k) s)) := by
  rw [emit, sinkWrites_eq]
  cases refusalWithin bs.length s.sink <;> rfl

theorem emit_ready {bs : List Byte} {p : PackRegs} {s : State} (h : s.SinkReady bs.length) :
    emit bs p s = .cont ((acceptBytes bs s).withPack p) := by
  rw [emit_eq, refusalWithin_none.2 h]

theorem emit_nil (s : State) : emit [] s.pack s = .cont s := rfl

/-- An emission followed by an operation that emits: one emission of both. -/
theorem emit_andThen {a b : List Byte} {p q : PackRegs} {s : State} {f : State → Flow}
    (hf : ∀ t : State, t.pack = p → f t = emit b q t) :
    (emit a p s).andThen f = emit (a ++ b) q s := by
  have h1 : ∀ t : State, f (t.withPack p) = (sinkWrites b t).andThen fun u => .cont (u.withPack q) := by
    intro t
    rw [hf _ (pack_withPack t p)]
    simp only [emit, sinkWrites_withPack, andThen_assoc, andThen_cont, withPack_withPack]
  simp only [emit, andThen_assoc, andThen_cont, h1, ← sinkWrites_append]

/-! PK_PUT_CODE. -/

/-- The whole bytes of the `n` pending bits of an accumulator, oldest first. -/
def wholeBytes (n : Nat) (acc : BitVec 32) : List Byte :=
  (List.range (n / 8)).map fun i => acc.extractLsb' (n - 8 * (i + 1)) 8

theorem wholeBytes_short {n : Nat} (h : n < 8) (acc : BitVec 32) : wholeBytes n acc = [] := by
  simp [wholeBytes, Nat.div_eq_of_lt h]

theorem wholeBytes_step {n : Nat} (h : 8 ≤ n) (acc : BitVec 32) :
    wholeBytes n acc = acc.extractLsb' (n - 8) 8 :: wholeBytes (n - 8) acc := by
  have : n / 8 = (n - 8) / 8 + 1 := by omega
  simp only [wholeBytes, this, List.range_succ_eq_map, List.map_cons, List.map_map]
  simp only [Nat.zero_add, Nat.mul_one, List.cons.injEq, true_and]
  apply List.map_congr_left
  intro i _
  simp only [Function.comp]
  congr 1
  omega

theorem sendWholeBytes_eq {fuel n : Nat} (h : n ≤ fuel) (s : State) :
    sendWholeBytes fuel n s =
      emit (wholeBytes n s.acc) { acc := s.acc, cnt := BitVec.ofNat 5 (n % 8), width := s.width } s := by
  induction fuel generalizing n s with
  | zero =>
    obtain rfl : n = 0 := by omega
    rfl
  | succ fuel ih =>
    unfold sendWholeBytes
    by_cases h8 : 8 ≤ n
    · rw [if_pos h8, wholeBytes_step h8, emit]
      simp only [sinkWrites, andThen_assoc]
      have hmod : (n - 8) % 8 = n % 8 := by omega
      rw [sinkWrite]
      cases hs : s.sink.head? with
      | none => simp only [andThen_cont]; rw [ih (by omega), hmod]; rfl
      | some a =>
        cases a with
        | accept => simp only [andThen_cont]; rw [ih (by omega), hmod]; rfl
        | refuse => rfl
    · rw [if_neg h8, wholeBytes_short (by omega), Nat.mod_eq_of_lt (by omega)]
      rfl

/-- The accumulator after a code is shifted in (R140). -/
def shiftIn (x : Nat) (p : PackRegs) : BitVec 32 :=
  (p.acc <<< p.width.toNat) ||| packedValue x

/-- The pending count after a code is shifted in (R140). -/
def shiftedCount (p : PackRegs) : Nat :=
  p.cnt.toNat + p.width.toNat

/-- The bytes PK_PUT_CODE(x) sends. -/
def putBytes (x : Nat) (p : PackRegs) : List Byte :=
  wholeBytes (shiftedCount p) (shiftIn x p)

/-- The packer's registers after PK_PUT_CODE(x). -/
def putRegs (x : Nat) (p : PackRegs) : PackRegs :=
  { acc := shiftIn x p, cnt := BitVec.ofNat 5 (shiftedCount p % 8), width := 9 }

/-- PK_PUT_CODE is one emission. -/
theorem pkPutCode_eq (x : Nat) (s : State) :
    pkPutCode x s = emit (putBytes x s.pack) (putRegs x s.pack) s := by
  have hs : ({ s with acc := (s.acc <<< s.width.toNat) ||| packedValue x } : State) =
      s.withPack { acc := shiftIn x s.pack, cnt := s.cnt, width := s.width } := rfl
  rw [pkPutCode, hs, sendWholeBytes_eq (Nat.le_refl _), emit, sinkWrites_withPack, emit]
  simp only [andThen_assoc, andThen_cont, withPack_withPack]
  rfl

theorem putRegs_cnt (x : Nat) (p : PackRegs) : (putRegs x p).cnt.toNat = shiftedCount p % 8 := by
  simp only [putRegs, BitVec.toNat_ofNat]
  omega

theorem putBytes_length (x : Nat) (p : PackRegs) : (putBytes x p).length = shiftedCount p / 8 := by
  simp [putBytes, wholeBytes]

/-! Several codes. -/

def putsBytes : List Nat → PackRegs → List Byte
  | [], _ => []
  | x :: xs, p => putBytes x p ++ putsBytes xs (putRegs x p)

def putsRegs : List Nat → PackRegs → PackRegs
  | [], p => p
  | x :: xs, p => putsRegs xs (putRegs x p)

/-- The bits sent and pending after several codes are those pending before and those packed (R39). -/
theorem putsBytes_count (x : Nat) (xs : List Nat) (p : PackRegs) :
    8 * (putsBytes (x :: xs) p).length + (putsRegs (x :: xs) p).cnt.toNat =
      p.cnt.toNat + p.width.toNat + 9 * xs.length := by
  induction xs generalizing x p with
  | nil =>
    simp only [putsBytes, putsRegs, List.append_nil, putBytes_length, putRegs_cnt, List.length_nil, shiftedCount]
    omega
  | cons y ys ih =>
    have h := ih y (putRegs x p)
    rw [putsBytes, putsRegs, List.length_append, putBytes_length, List.length_cons]
    have hw : (putRegs x p).width.toNat = 9 := rfl
    rw [hw, putRegs_cnt] at h
    simp only [shiftedCount] at h ⊢
    omega

theorem putsRegs_cnt_small (x : Nat) (xs : List Nat) (p : PackRegs) : (putsRegs (x :: xs) p).cnt.toNat ≤ 7 := by
  induction xs generalizing x p with
  | nil => simp only [putsRegs, putRegs_cnt]; omega
  | cons y ys ih => exact ih y (putRegs x p)

theorem putsRegs_width (x : Nat) (xs : List Nat) (p : PackRegs) : (putsRegs (x :: xs) p).width = 9 := by
  induction xs generalizing x p with
  | nil => rfl
  | cons y ys ih => exact ih y (putRegs x p)

theorem pkPutCodes_eq (xs : List Nat) (s : State) :
    pkPutCodes xs s = emit (putsBytes xs s.pack) (putsRegs xs s.pack) s := by
  induction xs generalizing s with
  | nil => rfl
  | cons x xs ih =>
    rw [pkPutCodes, pkPutCode_eq]
    exact emit_andThen fun t ht => by rw [ih t, ht]; rfl

theorem pkPutString_eq (v : Str) (s : State) : pkPutString v s = pkPutCodes (v.map BitVec.toNat) s := by
  induction v generalizing s with
  | nil => rfl
  | cons b v ih => simp only [pkPutString, List.map_cons, pkPutCodes, funext ih]

/-! PK_FLUSH. -/

/-- How many pad codes the loop of PK_FLUSH packs. -/
def padCount : Nat → PackRegs → Nat
  | 0, _ => 0
  | fuel + 1, p => if p.cnt.toNat % p.width.toNat ≠ 0 then padCount fuel (putRegs 256 p) + 1 else 0

theorem padToBoundary_eq (fuel : Nat) (s : State) :
    padToBoundary fuel s = pkPutCodes (List.replicate (padCount fuel s.pack) 256) s := by
  induction fuel generalizing s with
  | zero => rfl
  | succ fuel ih =>
    unfold padToBoundary padCount
    have hcw : s.cnt.toNat % s.width.toNat = s.pack.cnt.toNat % s.pack.width.toNat := rfl
    rw [hcw]
    split
    · rw [List.replicate_succ, pkPutCodes, pkPutCode_eq]
      have hf : ∀ t : State, t.pack = putRegs 256 s.pack →
          padToBoundary fuel t = emit (putsBytes (List.replicate (padCount fuel (putRegs 256 s.pack)) 256)
            (putRegs 256 s.pack)) (putsRegs (List.replicate (padCount fuel (putRegs 256 s.pack)) 256)
            (putRegs 256 s.pack)) t := by
        intro t ht; rw [ih, pkPutCodes_eq, ht]
      rw [emit_andThen hf, emit_andThen fun t ht => by rw [pkPutCodes_eq, ht]]
    · rfl

theorem shiftedCount_putRegs (x : Nat) (p : PackRegs) : shiftedCount (putRegs x p) = shiftedCount p % 8 + 9 := by
  rw [shiftedCount, putRegs_cnt]; rfl

/-- At width 9 with at most 7 pending bits, PK_FLUSH packs (8 - CNT) mod 8 pad codes (R144). -/
theorem padCount_steady {p : PackRegs} (hw : p.width = 9) (hc : p.cnt.toNat ≤ 7) :
    padCount 8 p = (8 - p.cnt.toNat) % 8 := by
  have key : ∀ fuel c : Nat, ∀ q : PackRegs, q.width = 9 → q.cnt.toNat = c → c ≤ 7 → 8 - c ≤ fuel →
      padCount fuel q = (8 - c) % 8 := by
    intro fuel
    induction fuel with
    | zero => intro c q _ _ hc hf; omega
    | succ fuel ih =>
      intro c q hw hq hc hf
      have h9 : q.width.toNat = 9 := by rw [hw]; rfl
      unfold padCount
      rw [hq, h9, Nat.mod_eq_of_lt (by omega : c < 9)]
      split
      · rename_i h0
        have hsc : shiftedCount q = c + 9 := by rw [shiftedCount, hq, h9]
        have hcnt : (putRegs 256 q).cnt.toNat = (c + 1) % 8 := by rw [putRegs_cnt, hsc]; omega
        by_cases h7 : c = 7
        · subst h7
          cases fuel with
          | zero => rfl
          | succ fuel => unfold padCount; rw [hcnt]; rfl
        · rw [ih ((c + 1) % 8) _ rfl hcnt (by omega) (by omega)]
          omega
      · omega
  exact key 8 _ p hw rfl hc (by omega)

/-- With no pending bit PK_FLUSH packs nothing, at any width (R142). -/
theorem padCount_aligned {p : PackRegs} (hc : p.cnt = 0) (fuel : Nat) : padCount fuel p = 0 := by
  cases fuel with
  | zero => rfl
  | succ fuel => simp [padCount, hc]

end Sys2Proof.Machine
end

