-- ==== Sys2Proof/Laws/Bits.lean ====
section
/-! SUPPORT. Bit sequences: a number's bits, cutting into bytes, and the bit queue of R145: PK_PUT_CODE
appends the code's bits to the pending ones and sends the whole bytes of the result. -/

namespace Sys2Proof.Machine

@[simp] theorem codeBits_length (n x : Nat) : (codeBits n x).length = n := by
  induction n with
  | zero => rfl
  | succ n ih => simp [codeBits, ih]

theorem bitsValue_codeBits (n x : Nat) : bitsValue (codeBits n x) = x % 2 ^ n := by
  induction n with
  | zero => simp [codeBits, bitsValue, Nat.mod_one]
  | succ n ih =>
    rw [codeBits, bitsValue, ih, codeBits_length, Nat.mod_pow_succ, Nat.testBit_eq_decide_div_mod_eq]
    rcases Nat.mod_two_eq_zero_or_one (x / 2 ^ n) with h | h <;> simp [h]
    omega

theorem codeBits_congr {n x y : Nat} (h : ∀ i < n, x.testBit i = y.testBit i) : codeBits n x = codeBits n y := by
  induction n with
  | zero => rfl
  | succ n ih => simp only [codeBits, h n (Nat.lt_succ_self n), ih fun i hi => h i (by omega)]

theorem codeBits_add (a b x : Nat) : codeBits (a + b) x = codeBits a (x / 2 ^ b) ++ codeBits b x := by
  induction a with
  | zero => simp [codeBits]
  | succ a ih =>
    have : a + 1 + b = (a + b) + 1 := by omega
    rw [this, codeBits, codeBits, ih, Nat.testBit_div_two_pow, List.cons_append]

/-! Cutting. -/

/-- A group of 8 bits is the first byte. -/
theorem cutBytes_group {g : List Bool} (h : g.length = 8) (q : List Bool) :
    cutBytes (g ++ q) = BitVec.ofNat 8 (bitsValue g) :: cutBytes q := by
  match g, h with
  | [_, _, _, _, _, _, _, _], _ => rfl

theorem uncutBits_group {g : List Bool} (h : g.length = 8) (q : List Bool) : uncutBits (g ++ q) = uncutBits q := by
  match g, h with
  | [_, _, _, _, _, _, _, _], _ => rfl

theorem cutBytes_short {q : List Bool} (h : q.length < 8) : cutBytes q = [] := by
  match q, h with
  | [], _ | [_], _ | [_, _], _ | [_, _, _], _ | [_, _, _, _], _ | [_, _, _, _, _], _ | [_, _, _, _, _, _], _
  | [_, _, _, _, _, _, _], _ => rfl
  | _ :: _ :: _ :: _ :: _ :: _ :: _ :: _ :: _, h => simp at h; omega

theorem uncutBits_short {q : List Bool} (h : q.length < 8) : uncutBits q = q := by
  match q, h with
  | [], _ | [_], _ | [_, _], _ | [_, _, _], _ | [_, _, _, _], _ | [_, _, _, _, _], _ | [_, _, _, _, _, _], _
  | [_, _, _, _, _, _, _], _ => rfl
  | _ :: _ :: _ :: _ :: _ :: _ :: _ :: _ :: _, h => simp at h; omega

/-- A bit sequence is a group of 8 and a rest, or shorter than 8. -/
theorem group_cases (q : List Bool) : q.length < 8 ∨ ∃ g r, q = g ++ r ∧ g.length = 8 := by
  by_cases h : q.length < 8
  · exact .inl h
  · exact .inr ⟨q.take 8, q.drop 8, (List.take_append_drop 8 q).symm, by simp; omega⟩

theorem cutBytes_length (q : List Bool) : (cutBytes q).length = q.length / 8 := by
  induction hn : q.length using Nat.strong_induction_on generalizing q with
  | _ n ih =>
    rcases group_cases q with h | ⟨g, r, rfl, hg⟩
    · rw [cutBytes_short h]; simp; omega
    · rw [cutBytes_group hg, List.length_cons, ih r.length (by simp at hn; omega) r rfl]
      simp at hn; omega

theorem uncutBits_length (q : List Bool) : (uncutBits q).length = q.length % 8 := by
  induction hn : q.length using Nat.strong_induction_on generalizing q with
  | _ n ih =>
    rcases group_cases q with h | ⟨g, r, rfl, hg⟩
    · rw [uncutBits_short h]; omega
    · rw [uncutBits_group hg, ih r.length (by simp at hn; omega) r rfl]
      simp at hn; omega

/-- Cutting a sequence in two parts: what the first leaves uncut goes before the second. -/
theorem cutBytes_append (q r : List Bool) : cutBytes (q ++ r) = cutBytes q ++ cutBytes (uncutBits q ++ r) := by
  induction hn : q.length using Nat.strong_induction_on generalizing q with
  | _ n ih =>
    rcases group_cases q with h | ⟨g, s, rfl, hg⟩
    · rw [cutBytes_short h, uncutBits_short h, List.nil_append]
    · rw [List.append_assoc, cutBytes_group hg, cutBytes_group hg, uncutBits_group hg,
        ih s.length (by simp at hn; omega) s rfl, List.cons_append]

theorem uncutBits_append (q r : List Bool) : uncutBits (q ++ r) = uncutBits (uncutBits q ++ r) := by
  induction hn : q.length using Nat.strong_induction_on generalizing q with
  | _ n ih =>
    rcases group_cases q with h | ⟨g, s, rfl, hg⟩
    · rw [uncutBits_short h]
    · rw [List.append_assoc, uncutBits_group hg, uncutBits_group hg, ih s.length (by simp at hn; omega) s rfl]

theorem uncutBits_codeBits (n x : Nat) : uncutBits (codeBits n x) = codeBits (n % 8) x := by
  induction n using Nat.strong_induction_on with
  | _ n ih =>
    by_cases h : n < 8
    · rw [uncutBits_short (by simpa using h), Nat.mod_eq_of_lt h]
    · obtain ⟨m, rfl⟩ : ∃ m, n = 8 + m := ⟨n - 8, by omega⟩
      rw [codeBits_add, uncutBits_group (codeBits_length _ _), ih m (by omega)]
      congr 1; omega

/-- The whole bytes of the pending bits are the pending bits cut into bytes. -/
theorem wholeBytes_eq_cutBytes (n : Nat) (acc : BitVec 32) : wholeBytes n acc = cutBytes (codeBits n acc.toNat) := by
  induction n using Nat.strong_induction_on with
  | _ n ih =>
    by_cases h : n < 8
    · rw [wholeBytes_short h, cutBytes_short (by simpa using h)]
    · have hn : n = 8 + (n - 8) := by omega
      rw [wholeBytes_step (by omega), ih (n - 8) (by omega)]
      conv_rhs => rw [hn, codeBits_add, cutBytes_group (codeBits_length _ _), bitsValue_codeBits]
      congr 1
      apply BitVec.eq_of_toNat_eq
      simp [Nat.shiftRight_eq_div_pow]

/-! The bit queue. -/

/-- A code that fits the width it is packed at: any 9-bit value at width 9; at width 8, whose ninth bit would
land on an older one, a value below 256 (R124, R140). -/
def FitsWidth (x : Nat) (w : BitVec 4) : Prop :=
  w = 9 ∨ (w = 8 ∧ x % 512 < 256)

/-- Shifting a code in appends its bits to the pending ones. -/
theorem codeBits_shiftIn {x : Nat} {p : PackRegs} (hc : p.cnt.toNat ≤ 7) (hw : FitsWidth x p.width) :
    codeBits (shiftedCount p) (shiftIn x p).toNat = codeBits p.cnt.toNat p.acc.toNat ++ codeBits p.width.toNat x := by
  have hbit : ∀ i, i < 16 → (shiftIn x p).toNat.testBit i =
      if i < p.width.toNat then x.testBit i else p.acc.toNat.testBit (i - p.width.toNat) := by
    intro i hi
    have h9 : (packedValue x).toNat = x % 512 := by
      simp [packedValue, lowNine]; omega
    have hx : x % 512 = x % 2 ^ 9 := rfl
    have h32 : i < 32 := by omega
    rw [shiftIn, BitVec.toNat_or, h9, BitVec.toNat_shiftLeft, Nat.testBit_or, Nat.testBit_mod_two_pow,
      Nat.testBit_shiftLeft]
    rcases hw with hw | ⟨hw, hlt⟩
    · have : p.width.toNat = 9 := by rw [hw]; rfl
      rw [this, hx, Nat.testBit_mod_two_pow]
      by_cases h : i < 9
      · simp [h]
      · simp [h, Nat.not_lt.1 h, h32]
    · have : p.width.toNat = 8 := by rw [hw]; rfl
      rw [this]
      by_cases h : i < 8
      · rw [hx, Nat.testBit_mod_two_pow]; simp [h, show ¬ 8 ≤ i by omega, show i < 9 by omega]
      · have : (x % 512).testBit i = false := Nat.testBit_lt_two_pow (by
          calc x % 512 < 2 ^ 8 := hlt
            _ ≤ 2 ^ i := Nat.pow_le_pow_right (by omega) (by omega))
        simp [h, this, h32, Nat.not_lt.1 h]
  have hwid : p.width.toNat ≤ 9 := by rcases hw with h | ⟨h, -⟩ <;> rw [h] <;> decide
  rw [shiftedCount, codeBits_add]
  congr 1
  · apply codeBits_congr
    intro i hi
    rw [Nat.testBit_div_two_pow, hbit _ (by omega), if_neg (by omega)]
    congr 1; omega
  · apply codeBits_congr
    intro i hi
    rw [hbit i (by omega), if_pos hi]

/-- The pending bits of the packer's registers. -/
def PackRegs.bits (p : PackRegs) : List Bool :=
  codeBits p.cnt.toNat p.acc.toNat

/-- R145 for one code: the bytes sent are the whole bytes of the pending bits with the code's appended. -/
theorem putBytes_eq {x : Nat} {p : PackRegs} (hc : p.cnt.toNat ≤ 7) (hw : FitsWidth x p.width) :
    putBytes x p = cutBytes (p.bits ++ codeBits p.width.toNat x) := by
  rw [putBytes, wholeBytes_eq_cutBytes, codeBits_shiftIn hc hw, PackRegs.bits]

/-- R145 for one code: the bits left pending are what the cutting leaves. -/
theorem putRegs_bits {x : Nat} {p : PackRegs} (hc : p.cnt.toNat ≤ 7) (hw : FitsWidth x p.width) :
    (putRegs x p).bits = uncutBits (p.bits ++ codeBits p.width.toNat x) := by
  rw [PackRegs.bits, putRegs_cnt, PackRegs.bits, ← codeBits_shiftIn hc hw, uncutBits_codeBits]
  rfl

theorem putRegs_small (x : Nat) (p : PackRegs) : (putRegs x p).cnt.toNat ≤ 7 := by
  rw [putRegs_cnt]; omega

theorem fitsWidth_steady (x : Nat) {p : PackRegs} (h : p.width = 9) : FitsWidth x p.width := .inl h

/-- R145 for several codes at width 9. -/
theorem putsBytes_steady {xs : List Nat} {p : PackRegs} (hc : p.cnt.toNat ≤ 7) (hw : p.width = 9) :
    putsBytes xs p = cutBytes (p.bits ++ xs.flatMap (codeBits 9)) ∧
      (putsRegs xs p).bits = uncutBits (p.bits ++ xs.flatMap (codeBits 9)) ∧
      (putsRegs xs p).cnt.toNat ≤ 7 ∧ (putsRegs xs p).width = 9 := by
  induction xs generalizing p with
  | nil =>
    have : p.bits.length < 8 := by simp [PackRegs.bits]; omega
    simp [putsBytes, putsRegs, cutBytes_short this, uncutBits_short this, hc, hw]
  | cons x xs ih =>
    have hf := fitsWidth_steady x hw
    have h9 : p.width.toNat = 9 := by rw [hw]; rfl
    obtain ⟨h1, h2, h3, h4⟩ := ih (putRegs_small x p) (p := putRegs x p) rfl
    refine ⟨?_, ?_, h3, h4⟩
    · rw [putsBytes, h1, putBytes_eq hc hf, putRegs_bits hc hf, h9, List.flatMap_cons, ← List.append_assoc,
        ← cutBytes_append]
    · rw [putsRegs, h2, putRegs_bits hc hf, h9, List.flatMap_cons, ← List.append_assoc, ← uncutBits_append]

/-- R145 for several codes, the first at any legal width. -/
theorem putsBytes_eq {x : Nat} {xs : List Nat} {p : PackRegs} (hc : p.cnt.toNat ≤ 7) (hw : FitsWidth x p.width) :
    putsBytes (x :: xs) p = cutBytes (p.bits ++ streamBits p.width.toNat (x :: xs)) ∧
      (putsRegs (x :: xs) p).bits = uncutBits (p.bits ++ streamBits p.width.toNat (x :: xs)) ∧
      (putsRegs (x :: xs) p).cnt.toNat ≤ 7 ∧ (putsRegs (x :: xs) p).width = 9 := by
  obtain ⟨h1, h2, h3, h4⟩ := putsBytes_steady (putRegs_small x p) (p := putRegs x p) rfl (xs := xs)
  refine ⟨?_, ?_, h3, h4⟩
  · rw [putsBytes, h1, putBytes_eq hc hw, putRegs_bits hc hw, streamBits, ← List.append_assoc, ← cutBytes_append]
  · rw [putsRegs, h2, putRegs_bits hc hw, streamBits, ← List.append_assoc, ← uncutBits_append]

end Sys2Proof.Machine
end

