-- ==== Sys2Proof/Laws/Dictionary.lean ====
section
/-! SUPPORT. The dictionary store: read after write, the canonical form and its uniqueness; and one lemma
for each of DICT_LOOKUP and DICT_INSERT that says all it can answer. -/

namespace Sys2Proof.Machine

/-! What an unlisted code reads as. -/

theorem initialEntry_literal {c : Code} (h : c.toNat < 256) : initialEntry c = .str [c.truncate 8] := by
  simp [initialEntry, h]

theorem initialEntry_reserved : initialEntry 256 = .reserved := by decide

theorem initialEntry_learned {c : Code} (h : 257 ≤ c.toNat) : initialEntry c = .empty := by
  have h1 : ¬ c.toNat < 256 := by omega
  have h2 : c ≠ 256 := by rintro rfl; revert h; decide
  simpa [initialEntry, h1] using h2

@[simp] theorem dictRead_nil (c : Code) : dictRead [] c = initialEntry c := rfl

/-! Read after write. -/

theorem dictRead_absent {d : Dict} {k : Code} (h : d.all (fun p => k.toNat < p.1.toNat) = true) :
    dictRead d k = initialEntry k := by
  induction d with
  | nil => rfl
  | cons p d ih =>
    obtain ⟨j, e⟩ := p
    simp only [List.all_cons, Bool.and_eq_true, decide_eq_true_eq] at h
    have hne : k ≠ j := by rintro rfl; omega
    simp [dictRead, hne, ih h.2]

theorem dictWf_cons {k : Code} {e : Entry} {d : Dict} :
    dictWf ((k, e) :: d) = true ↔
      e ≠ initialEntry k ∧ d.all (fun p => k.toNat < p.1.toNat) = true ∧ dictWf d = true := by
  simp [dictWf, and_assoc]

/-- A store in canonical form reads, at the code just written, the entry written. -/
theorem dictRead_write_same {d : Dict} (h : dictWf d = true) (c : Code) (e : Entry) :
    dictRead (dictWrite d c e) c = e := by
  induction d with
  | nil => unfold dictWrite; split <;> simp_all [dictRead]
  | cons p d ih =>
    obtain ⟨k, x⟩ := p
    obtain ⟨-, hall, hwf⟩ := dictWf_cons.1 h
    unfold dictWrite
    split
    · rename_i hlt
      split
      · rename_i he
        have hne : c ≠ k := by rintro rfl; omega
        have : d.all (fun p => c.toNat < p.1.toNat) = true := by
          simp only [List.all_eq_true, decide_eq_true_eq] at hall ⊢
          intro q hq; have := hall q hq; omega
        simp [dictRead, hne, dictRead_absent this, he]
      · simp [dictRead]
    · split
      · rename_i heq
        subst heq
        split
        · rename_i he; rw [dictRead_absent hall, he]
        · simp [dictRead]
      · rename_i hne; simp [dictRead, hne, ih hwf]

/-- A write leaves every other code alone. -/
theorem dictRead_write_other (d : Dict) {c c' : Code} (e : Entry) (h : c' ≠ c) :
    dictRead (dictWrite d c e) c' = dictRead d c' := by
  induction d with
  | nil => unfold dictWrite; split <;> simp [dictRead, h]
  | cons p d ih =>
    obtain ⟨k, x⟩ := p
    unfold dictWrite
    split
    · split <;> simp [dictRead, h]
    · split
      · rename_i heq
        subst heq
        split <;> simp [dictRead, h]
      · simp [dictRead, ih]

/-! The canonical form. -/

theorem dictWrite_above {d : Dict} {j c : Code} (e : Entry) (hj : j.toNat < c.toNat)
    (h : d.all (fun p => j.toNat < p.1.toNat) = true) :
    (dictWrite d c e).all (fun p => j.toNat < p.1.toNat) = true := by
  induction d with
  | nil => unfold dictWrite; split <;> simp [hj]
  | cons p d ih =>
    obtain ⟨k, x⟩ := p
    simp only [List.all_cons, Bool.and_eq_true, decide_eq_true_eq] at h
    unfold dictWrite
    split
    · split <;> simp_all <;> exact h.2
    · split
      · split <;> simp_all <;> exact h.2
      · simp [h.1, ih h.2]

/-- Every write keeps the canonical form. -/
theorem dictWf_write {d : Dict} (h : dictWf d = true) (c : Code) (e : Entry) : dictWf (dictWrite d c e) = true := by
  induction d with
  | nil => unfold dictWrite; split <;> simp_all [dictWf]
  | cons p d ih =>
    obtain ⟨k, x⟩ := p
    obtain ⟨hx, hall, hwf⟩ := dictWf_cons.1 h
    unfold dictWrite
    split
    · rename_i hlt
      split
      · exact h
      · rename_i he
        refine dictWf_cons.2 ⟨he, ?_, h⟩
        simp only [List.all_cons, Bool.and_eq_true, decide_eq_true_eq, List.all_eq_true] at hall ⊢
        exact ⟨hlt, fun q hq => by have := hall q hq; omega⟩
    · rename_i hnlt
      split
      · rename_i heq
        subst heq
        split
        · exact hwf
        · rename_i he; exact dictWf_cons.2 ⟨he, hall, hwf⟩
      · rename_i hne
        have hlt : k.toNat < c.toNat := by
          have : c.toNat ≠ k.toNat := fun h => hne (BitVec.eq_of_toNat_eq h)
          omega
        exact dictWf_cons.2 ⟨hx, dictWrite_above e hlt hall, ih hwf⟩

@[simp] theorem dictWf_nil : dictWf [] = true := rfl

/-- Equal stores are equal data: the canonical form is unique. -/
theorem dict_ext {d d' : Dict} (h : dictWf d = true) (h' : dictWf d' = true)
    (heq : ∀ c, dictRead d c = dictRead d' c) : d = d' := by
  induction d generalizing d' with
  | nil =>
    cases d' with
    | nil => rfl
    | cons p d' =>
      obtain ⟨k, e⟩ := p
      have := heq k
      simp only [dictRead, if_true] at this
      exact absurd this.symm (dictWf_cons.1 h').1
  | cons p d ih =>
    obtain ⟨k, e⟩ := p
    obtain ⟨he, hall, hwf⟩ := dictWf_cons.1 h
    cases d' with
    | nil =>
      have := heq k
      simp only [dictRead, if_true] at this
      exact absurd this he
    | cons p' d' =>
      obtain ⟨k', e'⟩ := p'
      obtain ⟨he', hall', hwf'⟩ := dictWf_cons.1 h'
      have hk : k = k' := by
        rcases Nat.lt_trichotomy k.toNat k'.toNat with hlt | hkk | hlt
        · have habs : ((k', e') :: d').all (fun p => k.toNat < p.1.toNat) = true := by
            simp only [List.all_cons, Bool.and_eq_true, decide_eq_true_eq, List.all_eq_true] at hall' ⊢
            exact ⟨hlt, fun q hq => by have := hall' q hq; omega⟩
          have := heq k
          rw [dictRead_absent habs] at this
          exact absurd (by simpa [dictRead] using this) he
        · exact BitVec.eq_of_toNat_eq hkk
        · have habs : ((k, e) :: d).all (fun p => k'.toNat < p.1.toNat) = true := by
            simp only [List.all_cons, Bool.and_eq_true, decide_eq_true_eq, List.all_eq_true] at hall ⊢
            exact ⟨hlt, fun q hq => by have := hall q hq; omega⟩
          have := heq k'
          rw [dictRead_absent habs] at this
          exact absurd (by simpa [dictRead] using this.symm) he'
      subst hk
      have hee : e = e' := by simpa [dictRead] using heq k
      subst hee
      have htail : ∀ c, dictRead d c = dictRead d' c := by
        intro c
        by_cases hc : c = k
        · subst hc; rw [dictRead_absent hall, dictRead_absent hall']
        · simpa [dictRead, hc] using heq c
      rw [ih hwf hwf' htail]

theorem mem_allCodes (c : Code) : c ∈ allCodes := by
  simp only [allCodes, List.mem_map, List.mem_range]
  exact ⟨c.toNat, c.isLt, by simp⟩

theorem allCodes_rising : allCodes.Pairwise (fun a b => a.toNat < b.toNat) := by
  rw [allCodes, List.pairwise_map]
  refine List.Pairwise.imp_of_mem ?_ List.pairwise_lt_range
  intro a b ha hb hab
  simp only [List.mem_range] at ha hb
  simp only [BitVec.toNat_ofNat]
  omega

theorem dictWf_filterMap (f : Code → Entry) (l : List Code) (h : l.Pairwise (fun a b => a.toNat < b.toNat)) :
    dictWf (l.filterMap fun c => if f c = initialEntry c then none else some (c, f c)) = true := by
  induction l with
  | nil => rfl
  | cons c l ih =>
    obtain ⟨hc, hl⟩ := List.pairwise_cons.1 h
    by_cases he : f c = initialEntry c
    · simpa [he] using ih hl
    · simp only [List.filterMap_cons, he, if_false]
      refine dictWf_cons.2 ⟨he, ?_, ih hl⟩
      simp only [List.all_eq_true, decide_eq_true_eq, List.mem_filterMap]
      rintro p ⟨a, ha, hp⟩
      split at hp
      · cases hp
      · cases hp; exact hc a ha

/-- The store built from a function is in canonical form. -/
theorem dictWf_dictOf (f : Code → Entry) : dictWf (dictOf f) = true := by
  rw [dictOf]
  exact dictWf_filterMap f _ allCodes_rising

theorem dictRead_filterMap (f : Code → Entry) (l : List Code) (c : Code) :
    dictRead (l.filterMap fun c => if f c = initialEntry c then none else some (c, f c)) c =
      if c ∈ l then f c else initialEntry c := by
  induction l with
  | nil => rfl
  | cons a l ih =>
    by_cases hca : c = a
    · subst hca
      by_cases he : f c = initialEntry c
      · by_cases hm : c ∈ l <;> simp [he, ih, hm]
      · simp [he, dictRead]
    · by_cases he : f a = initialEntry a <;> simp [he, ih, hca, dictRead]

/-- The store built from a function reads as the function. -/
theorem dictRead_dictOf (f : Code → Entry) (c : Code) : dictRead (dictOf f) c = f c := by
  rw [dictOf, dictRead_filterMap, if_pos (mem_allCodes c)]

/-! DICT_LOOKUP and DICT_INSERT. -/

theorem find_rising {p : Code → Bool} {l : List Code} (hl : l.Pairwise (fun a b => a.toNat < b.toNat)) {c : Code}
    (h : l.find? p = some c) : p c = true ∧ ∀ a ∈ l, a.toNat < c.toNat → p a = false := by
  induction l with
  | nil => simp at h
  | cons a l ih =>
    obtain ⟨ha, hl⟩ := List.pairwise_cons.1 hl
    by_cases hp : p a = true
    · simp only [List.find?_cons, hp] at h
      cases h
      refine ⟨hp, fun b hb hlt => ?_⟩
      rcases List.mem_cons.1 hb with rfl | hb
      · omega
      · have := ha b hb; omega
    · simp only [List.find?_cons, hp] at h
      obtain ⟨h1, h2⟩ := ih hl h
      refine ⟨h1, fun b hb hlt => ?_⟩
      rcases List.mem_cons.1 hb with rfl | hb
      · simpa using hp
      · exact h2 b hb hlt

/-- The first code that passes a test is the one found. -/
theorem find_first {p : Code → Bool} {c : Code} (h1 : p c = true) (h2 : ∀ a : Code, a.toNat < c.toNat → p a = false) :
    allCodes.find? p = some c := by
  cases hf : allCodes.find? p with
  | none => exact absurd h1 (List.find?_eq_none.1 hf c (mem_allCodes c))
  | some e =>
    obtain ⟨g1, g2⟩ := find_rising allCodes_rising hf
    rcases Nat.lt_trichotomy e.toNat c.toNat with h | h | h
    · rw [h2 e h] at g1; cases g1
    · rw [BitVec.eq_of_toNat_eq h]
    · rw [g2 c (mem_allCodes c) h] at h1; cases h1

/-- DICT_LOOKUP answers a code whose entry is exactly the string, and the smallest such code (R101). -/
theorem dictLookup_some {d : Dict} {v : Str} {c : Code} (h : dictLookup d v = some c) :
    dictRead d c = .str v ∧ ∀ a : Code, a.toNat < c.toNat → dictRead d a ≠ .str v := by
  rw [dictLookup] at h
  obtain ⟨h1, h2⟩ := find_rising allCodes_rising h
  exact ⟨by simpa using h1, fun a ha => by simpa using h2 a (mem_allCodes a) ha⟩

/-- DICT_LOOKUP answers NotFound exactly when no entry is the string (R101). -/
theorem dictLookup_none {d : Dict} {v : Str} : dictLookup d v = none ↔ ∀ c, dictRead d c ≠ .str v := by
  rw [dictLookup, List.find?_eq_none]
  constructor
  · intro h c hc
    exact h c (mem_allCodes c) (decide_eq_true hc)
  · intro h c _ hc
    exact h c (of_decide_eq_true hc)

/-- Where the string is stored at one code only, DICT_LOOKUP answers that code. -/
theorem dictLookup_unique {d : Dict} {v : Str} {c : Code} (h : dictRead d c = .str v)
    (hu : ∀ a, dictRead d a = .str v → a = c) : dictLookup d v = some c := by
  cases hl : dictLookup d v with
  | none => exact absurd h (dictLookup_none.1 hl c)
  | some a => rw [hu a (dictLookup_some hl).1]

/-- DICT_INSERT into a full dictionary (R102, R103). -/
theorem dictInsert_full (v : Str) {s : State} (h : 512 ≤ s.next.toNat) : dictInsert v s = (.full, s) := by
  simp [dictInsert, h]

/-- DICT_INSERT with a slot free (R102). -/
theorem dictInsert_assigned (v : Str) {s : State} (h : s.next.toNat < 512) :
    dictInsert v s = (.assigned (s.next.truncate 9),
      { s with dict := dictWrite s.dict (s.next.truncate 9) (.str v), next := s.next + 1 }) := by
  simp [dictInsert, Nat.not_le.2 h]

end Sys2Proof.Machine
end

