-- ==== Sys2Proof/Laws/Commands.lean ====
section
/-! SUPPORT. What a command can do, said once: an accepted command sends bytes that depend on the state
before it alone, and either the sink takes them all and the command's whole effect follows, or the sink
refuses one and SINK_ERROR is raised. What a step can do, said once. -/

namespace Sys2Proof.Machine

/-! The Encoder Loop. -/

/-- The codes LOOP_EMIT_PENDING gives the packer (R121). -/
def pendingCodes (pend : Option Code) (before : Str) : List Nat :=
  match pend with
  | none => before.map BitVec.toNat
  | some k => [k.toNat]

theorem pkPutCodes_single (x : Nat) (s : State) : pkPutCodes [x] s = pkPutCode x s := by
  rw [pkPutCodes]
  cases h : pkPutCode x s <;> simp [pkPutCodes]

theorem loopEmitPending_eq (before : Str) (s : State) :
    loopEmitPending before s = pkPutCodes (pendingCodes s.pend before) s := by
  unfold loopEmitPending pendingCodes
  cases s.pend with
  | none => exact pkPutString_eq before s
  | some k => exact (pkPutCodes_single _ s).symm

/-- What DICT_INSERT leaves of the state, its answer ignored (R120 step 4a). -/
def learn (v : Str) (s : State) : State :=
  (dictInsert v s).2

theorem learn_full (v : Str) {s : State} (h : 512 ≤ s.next.toNat) : learn v s = s := by
  rw [learn, dictInsert_full v h]

theorem learn_free (v : Str) {s : State} (h : s.next.toNat < 512) :
    learn v s = { s with dict := dictWrite s.dict (s.next.truncate 9) (.str v), next := s.next + 1 } := by
  rw [learn, dictInsert_assigned v h]

/-- DICT_INSERT changes D and NEXT only. -/
theorem learn_eq (v : Str) (s : State) :
    learn v s = { s with dict := (learn v s).dict, next := (learn v s).next } := by
  by_cases h : s.next.toNat < 512
  · rw [learn_free v h]
  · rw [learn_full v (by omega)]

@[simp] theorem learn_st (v : Str) (s : State) : (learn v s).st = s.st := by rw [learn_eq]
@[simp] theorem learn_cause (v : Str) (s : State) : (learn v s).cause = s.cause := by rw [learn_eq]
@[simp] theorem learn_cand (v : Str) (s : State) : (learn v s).cand = s.cand := by rw [learn_eq]
@[simp] theorem learn_pend (v : Str) (s : State) : (learn v s).pend = s.pend := by rw [learn_eq]
@[simp] theorem learn_acc (v : Str) (s : State) : (learn v s).acc = s.acc := by rw [learn_eq]
@[simp] theorem learn_cnt (v : Str) (s : State) : (learn v s).cnt = s.cnt := by rw [learn_eq]
@[simp] theorem learn_width (v : Str) (s : State) : (learn v s).width = s.width := by rw [learn_eq]
@[simp] theorem learn_out (v : Str) (s : State) : (learn v s).out = s.out := by rw [learn_eq]
@[simp] theorem learn_cfg (v : Str) (s : State) : (learn v s).cfg = s.cfg := by rw [learn_eq]
@[simp] theorem learn_host (v : Str) (s : State) : (learn v s).host = s.host := by rw [learn_eq]
@[simp] theorem learn_sink (v : Str) (s : State) : (learn v s).sink = s.sink := by rw [learn_eq]
@[simp] theorem learn_delivered (v : Str) (s : State) : (learn v s).delivered = s.delivered := by rw [learn_eq]
@[simp] theorem learn_reads (v : Str) (s : State) : (learn v s).reads = s.reads := by rw [learn_eq]
@[simp] theorem learn_draws (v : Str) (s : State) : (learn v s).draws = s.draws := by rw [learn_eq]

theorem pack_learn (v : Str) (s : State) : (learn v s).pack = s.pack := by rw [learn_eq]; rfl

/-- A hit: the candidate grows, nothing is emitted (R120 step 3). -/
theorem loopByte_hit {b : Byte} {s : State} {k : Code} (h : dictLookup s.dict (s.cand ++ [b]) = some k) :
    loopByte b s = .cont { s with cand := s.cand ++ [b], pend := some k } := by
  rw [loopByte, h, loopByteFound]

/-- A miss (R120 step 4): the pending codes are emitted, the candidate is learned and restarts. -/
theorem loopByte_miss {b : Byte} {s : State} (h : dictLookup s.dict (s.cand ++ [b]) = none) :
    loopByte b s =
      (emit (putsBytes (pendingCodes s.pend s.cand) s.pack) (putsRegs (pendingCodes s.pend s.cand) s.pack)
        (learn (s.cand ++ [b]) s)).andThen fun t =>
          .cont { t with cand := [b], pend := dictLookup t.dict [b] } := by
  rw [loopByte, h, loopByteFound]
  change (loopEmitPending s.cand (learn (s.cand ++ [b]) s)).andThen _ = _
  rw [loopEmitPending_eq, pkPutCodes_eq, learn_pend, pack_learn]

/-- The codes END gives the packer: the pending one, then the pad codes (R122). -/
def endCodes (s : State) : List Nat :=
  let codes := pendingCodes s.pend s.cand
  codes ++ List.replicate (padCount 8 (putsRegs codes s.pack)) 256

theorem putsBytes_append (xs ys : List Nat) (p : PackRegs) :
    putsBytes (xs ++ ys) p = putsBytes xs p ++ putsBytes ys (putsRegs xs p) := by
  induction xs generalizing p with
  | nil => rfl
  | cons x xs ih => simp [putsBytes, putsRegs, ih]

theorem putsRegs_append (xs ys : List Nat) (p : PackRegs) :
    putsRegs (xs ++ ys) p = putsRegs ys (putsRegs xs p) := by
  induction xs generalizing p with
  | nil => rfl
  | cons x xs ih => simp [putsRegs, ih]

theorem loopEnd_eq (s : State) :
    loopEnd s = emit (putsBytes (endCodes s) s.pack) (putsRegs (endCodes s) s.pack) s := by
  rw [loopEnd, loopEmitPending_eq, pkPutCodes_eq, endCodes, putsBytes_append, putsRegs_append]
  exact emit_andThen fun t ht => by rw [pkFlush, padToBoundary_eq, pkPutCodes_eq, ht]

/-! A command. -/

/-- The bytes BYTE offers the sink, on the answer of its lookup: none on a hit, the pending codes' on a miss. -/
def byteBytes (s : State) : Option Code → List Byte
  | some _ => []
  | none => putsBytes (pendingCodes s.pend s.cand) s.pack

/-- What BYTE b leaves where the sink takes its bytes, on the answer of its lookup. -/
def byteFinal (b : Byte) (s : State) : Option Code → State
  | some k => { s with cand := s.cand ++ [b], pend := some k }
  | none =>
    { (acceptBytes (putsBytes (pendingCodes s.pend s.cand) s.pack) s).withPack
        (putsRegs (pendingCodes s.pend s.cand) s.pack) with
      dict := (learn (s.cand ++ [b]) s).dict
      next := (learn (s.cand ++ [b]) s).next
      cand := [b]
      pend := dictLookup (learn (s.cand ++ [b]) s).dict [b] }

/-- The bytes an accepted command offers the sink. -/
def commandBytes (i : Instr) (s : State) : List Byte :=
  match i with
  | .start => headerBytes
  | .byte b => byteBytes s (dictLookup s.dict (s.cand ++ [b]))
  | .endInput => putsBytes (endCodes s) s.pack

/-- The state an accepted command leaves where the sink takes all its bytes. -/
def commandFinal (i : Instr) (s : State) : State :=
  match i with
  | .start => { acceptBytes headerBytes s with st := .stream }
  | .byte b => byteFinal b s (dictLookup s.dict (s.cand ++ [b]))
  | .endInput =>
    { (acceptBytes (putsBytes (endCodes s) s.pack) s).withPack (putsRegs (endCodes s) s.pack) with st := .done }

/-- All an accepted command can do. -/
theorem exec_accepted {i : Instr} {s : State} (ha : accepted s.st i = true) :
    exec i s = .next (match refusalWithin (commandBytes i s).length s.sink with
      | none => commandFinal i s
      | some n => refuseByte (acceptBytes ((commandBytes i s).take n) s)) := by
  have hf : s.st ≠ .fault := by
    intro h; rw [h] at ha; cases i <;> simp [accepted] at ha
  cases i with
  | start =>
    simp only [exec, execStart, runCommand, hf, if_false, ha, if_true, doStart, cwHeader]
    rw [show Config.magic ++ [Config.headerByte] = headerBytes from rfl, sinkWrites_eq]
    simp only [commandBytes, commandFinal]
    cases refusalWithin headerBytes.length s.sink <;>
      simp only [andThen_cont, andThen_raised, state_cont, state_raised]
  | byte b =>
    simp only [exec, execByte, runCommand, hf, if_false, ha, if_true, doByte, commandBytes, commandFinal]
    cases hl : dictLookup s.dict (s.cand ++ [b]) with
    | some k => rw [loopByte_hit hl]; rfl
    | none =>
      rw [loopByte_miss hl, emit_eq, byteBytes, byteFinal, learn_sink]
      cases refusalWithin (putsBytes (pendingCodes s.pend s.cand) s.pack).length s.sink with
      | none => simp only [andThen_cont, state_cont]; rw [learn_eq]; rfl
      | some n =>
        simp only [andThen_raised, state_raised]
        exact congrArg Host.Outcome.next (by apply refuseByte_congr <;> simp [acceptBytes])
  | endInput =>
    simp only [exec, execEndInput, runCommand, hf, if_false, ha, if_true, doEnd]
    rw [loopEnd_eq, emit_eq]
    simp only [commandBytes, commandFinal]
    cases refusalWithin (putsBytes (endCodes s) s.pack).length s.sink <;>
      simp only [andThen_cont, andThen_raised, state_cont, state_raised]

/-- An accepted command whose bytes the sink takes. -/
theorem exec_ready {i : Instr} {s : State} (ha : accepted s.st i = true) (hr : s.SinkReady (commandBytes i s).length) :
    exec i s = .next (commandFinal i s) := by
  rw [exec_accepted ha, refusalWithin_none.2 hr]

/-- A command in FAULT is ignored (R189). -/
theorem exec_inFault (i : Instr) {s : State} (h : s.st = .fault) : exec i s = .next s := by
  cases i <;> simp [exec, execStart, execByte, execEndInput, runCommand, h]

/-- A command out of sequence (R186). -/
theorem exec_outOfSequence {i : Instr} {s : State} (h : s.st ≠ .fault) (ha : accepted s.st i = false) :
    exec i s = .next { s with st := .fault, cause := .sequence } := by
  rw [← raiseFault_precise .sequence s (by decide)]
  cases i <;> simp [exec, execStart, execByte, execEndInput, runCommand, h, ha]

/-! A step. -/

theorem step_idle {s : State} (h : s.host = []) : step s = .next s := by
  simp [step, hostStep, h]

theorem step_action {s : State} {a : HostAction} {rest : List HostAction} (h : s.host = a :: rest) :
    step s = runAction a { s with host := rest } := by
  simp [step, hostStep, h]

theorem runIllegal_eq (s : State) (h : s.st ≠ .fault) :
    runIllegal s = .next { s with st := .fault, cause := .illegalCmd } := by
  rw [← raiseFault_precise .illegalCmd s (by decide), runIllegal, if_neg h]

/-- All a host action can do: nothing; a reset; a STATUS read; a precise fault; an accepted command with its
bytes all taken; an accepted command stopped by the sink. -/
theorem runAction_cases (a : HostAction) (s : State) :
    runAction a s = .next s ∧ s.st = .fault ∧ (∃ w, a = .command w) ∨
    runAction a s = .next (resetEngine s) ∧ a = .reset ∨
    runAction a s = .next (readStatus s) ∧ a = .readStatus ∨
    (∃ w c, a = .command w ∧ s.st ≠ .fault ∧ (c = .illegalCmd ∨ c = .sequence) ∧
      runAction a s = .next { s with st := .fault, cause := c }) ∨
    (∃ w i, a = .command w ∧ decode w = .ok i ∧ accepted s.st i = true ∧
      s.SinkReady (commandBytes i s).length ∧ runAction a s = .next (commandFinal i s)) ∨
    ∃ w i n, a = .command w ∧ decode w = .ok i ∧ accepted s.st i = true ∧ n < (commandBytes i s).length ∧
      s.SinkRefusesAfter n ∧ runAction a s = .next (refuseByte (acceptBytes ((commandBytes i s).take n) s)) := by
  cases a with
  | reset => exact .inr (.inl ⟨rfl, rfl⟩)
  | readStatus => exact .inr (.inr (.inl ⟨rfl, rfl⟩))
  | command w =>
    by_cases hf : s.st = .fault
    · refine .inl ⟨?_, hf, w, rfl⟩
      simp only [runAction, runWord]
      cases decode w with
      | ok i => exact exec_inFault i hf
      | error e => exact if_pos hf
    · refine .inr (.inr (.inr ?_))
      cases hd : decode w with
      | error e =>
        refine .inl ⟨w, .illegalCmd, rfl, hf, .inl rfl, ?_⟩
        simp only [runAction, runWord, hd]
        exact runIllegal_eq s hf
      | ok i =>
        have hrun : runAction (.command w) s = exec i s := by simp [runAction, runWord, hd]
        rw [hrun]
        cases ha : accepted s.st i with
        | false => exact .inl ⟨w, .sequence, rfl, hf, .inr rfl, exec_outOfSequence hf ha⟩
        | true =>
          refine .inr ?_
          rw [exec_accepted ha]
          cases hr : refusalWithin (commandBytes i s).length s.sink with
          | none => exact .inl ⟨w, i, rfl, hd, ha, refusalWithin_none.1 hr, rfl⟩
          | some n =>
            obtain ⟨h1, h2, h3⟩ := refusalWithin_some.1 hr
            exact .inr ⟨w, i, n, rfl, hd, ha, h1, ⟨h2, h3⟩, rfl⟩

end Sys2Proof.Machine
end

