-- ==== Sys2Proof/Laws/DictInvariant.lean ====
section
/-! SUPPORT. The dictionary invariant: it holds of the reset store, an insert after a miss keeps it, and what
it says of the codes a lookup can answer. -/

namespace Sys2Proof.Machine

theorem code_lt (c : Code) : c.toNat < 512 := c.isLt

/-- The reset store (R44) meets the dictionary invariant. -/
theorem dictInv_initial : DictInv [] 257 where
  literal c h := initialEntry_literal h
  reserved := initialEntry_reserved
  cursor := by decide
  learned c h1 h2 := by
    have : (257 : BitVec 10).toNat = 257 := rfl
    omega
  unfilled c h := initialEntry_learned h
  unique c c' v h h' := by
    have key : ∀ a : Code, dictRead [] a = .str v → a.toNat < 256 ∧ v = [a.truncate 8] := by
      intro a ha
      rw [dictRead_nil] at ha
      by_cases hlt : a.toNat < 256
      · rw [initialEntry_literal hlt] at ha
        exact ⟨hlt, (Entry.str.inj ha).symm⟩
      · by_cases h256 : a = 256
        · rw [h256, initialEntry_reserved] at ha; cases ha
        · have : a.toNat ≠ 256 := fun h => h256 (BitVec.eq_of_toNat_eq h)
          rw [initialEntry_learned (by omega)] at ha; cases ha
    obtain ⟨hc, hv⟩ := key c h
    obtain ⟨hc', hv'⟩ := key c' h'
    have heq : (c.truncate 8 : BitVec 8) = c'.truncate 8 := by
      rw [hv] at hv'; exact (List.cons.inj hv').1
    have := congrArg BitVec.toNat heq
    simp only [BitVec.truncate_eq_setWidth, BitVec.toNat_setWidth] at this
    exact BitVec.eq_of_toNat_eq (by omega)

section
variable {d : Dict} {next : BitVec 10} (h : DictInv d next)
include h

/-- A stored string sits below the cursor, not at the reserved code (R23, R35). -/
theorem DictInv.stored {c : Code} {v : Str} (hc : dictRead d c = .str v) :
    c.toNat < next.toNat ∧ c.toNat ≠ 256 := by
  constructor
  · by_contra hn
    rw [h.unfilled c (Nat.not_lt.1 hn)] at hc; cases hc
  · intro h256
    have : c = 256 := BitVec.eq_of_toNat_eq h256
    rw [this, h.reserved] at hc; cases hc

/-- A stored string is a byte's own, or a learned one, one byte longer than one at a smaller code. -/
theorem DictInv.stored_cases {c : Code} {v : Str} (hc : dictRead d c = .str v) :
    (c.toNat < 256 ∧ v = [c.truncate 8]) ∨
      (257 ≤ c.toNat ∧ ∃ (j : Code) (p : Str) (b : Byte),
        j.toNat < c.toNat ∧ p ≠ [] ∧ dictRead d j = .str p ∧ v = p ++ [b]) := by
  obtain ⟨hlt, h256⟩ := h.stored hc
  by_cases hl : c.toNat < 256
  · left
    rw [h.literal c hl] at hc
    exact ⟨hl, (Entry.str.inj hc).symm⟩
  · right
    obtain ⟨j, p, b, h1, h2, h3, h4⟩ := h.learned c (by omega) hlt
    rw [h4] at hc
    exact ⟨by omega, j, p, b, h1, h2, h3, (Entry.str.inj hc).symm⟩

/-- No stored string is empty (R23). -/
theorem DictInv.stored_ne_nil {c : Code} {v : Str} (hc : dictRead d c = .str v) : v ≠ [] := by
  rcases h.stored_cases hc with ⟨-, rfl⟩ | ⟨-, j, p, b, -, -, -, rfl⟩ <;> simp

/-- A lookup answers the code of the string, whichever it is (R36, R101). -/
theorem DictInv.lookup_eq {c : Code} {v : Str} (hc : dictRead d c = .str v) : dictLookup d v = some c :=
  dictLookup_unique hc fun a ha => h.unique a c v ha hc

/-- A single byte is always found, at its literal code (R101). -/
theorem DictInv.lookup_literal (b : Byte) : dictLookup d [b] = some (b.zeroExtend 9) := by
  apply h.lookup_eq
  have hb : (b.zeroExtend 9 : Code).toNat = b.toNat := by simp; omega
  rw [h.literal _ (by rw [hb]; exact b.isLt)]
  congr 2
  apply BitVec.eq_of_toNat_eq
  simp only [BitVec.truncate_eq_setWidth, BitVec.toNat_setWidth]
  omega

/-- An insert of a candidate that missed keeps the invariant (R102, R120). -/
theorem DictInv.insert (hwf : dictWf d = true) (hfree : next.toNat < 512) {k : Code} {p : Str} {b : Byte}
    (hp : dictRead d k = .str p) (hmiss : dictLookup d (p ++ [b]) = none) :
    DictInv (dictWrite d (next.truncate 9) (.str (p ++ [b]))) (next + 1) := by
  have hn : (next.truncate 9 : Code).toNat = next.toNat := by
    simp only [BitVec.truncate_eq_setWidth, BitVec.toNat_setWidth]; omega
  have hn1 : (next + 1).toNat = next.toNat + 1 := by
    have : (1 : BitVec 10).toNat = 1 := rfl
    rw [BitVec.toNat_add, this]; omega
  have hcur := h.cursor
  have hsame := dictRead_write_same hwf (next.truncate 9) (.str (p ++ [b]))
  have hother : ∀ c : Code, c.toNat ≠ next.toNat →
      dictRead (dictWrite d (next.truncate 9) (.str (p ++ [b]))) c = dictRead d c := by
    intro c hc
    exact dictRead_write_other d _ fun h => hc (by rw [h, hn])
  have hat : ∀ c : Code, c.toNat = next.toNat → c = next.truncate 9 := by
    intro c hc
    exact BitVec.eq_of_toNat_eq (by rw [hc, hn])
  have hno := dictLookup_none.1 hmiss
  constructor
  · intro c hc; rw [hother c (by omega)]; exact h.literal c hc
  · rw [hother 256 (by have : (256 : Code).toNat = 256 := rfl; omega)]; exact h.reserved
  · omega
  · intro c hc1 hc2
    by_cases hc : c.toNat = next.toNat
    · have hk := h.stored hp
      refine ⟨k, p, b, by omega, h.stored_ne_nil hp, ?_, ?_⟩
      · rw [hother k (by omega)]; exact hp
      · rw [hat c hc]; exact hsame
    · obtain ⟨j, q, e, h1, h2, h3, h4⟩ := h.learned c hc1 (by omega)
      exact ⟨j, q, e, h1, h2, by rw [hother j (by omega)]; exact h3, by rw [hother c hc]; exact h4⟩
  · intro c hc
    rw [hother c (by omega)]; exact h.unfilled c (by omega)
  · intro c c' v hc hc'
    by_cases h1 : c.toNat = next.toNat <;> by_cases h2 : c'.toNat = next.toNat
    · exact BitVec.eq_of_toNat_eq (by omega)
    · rw [hat c h1, hsame] at hc
      rw [hother c' h2, ← Entry.str.inj hc] at hc'
      exact absurd hc' (hno c')
    · rw [hat c' h2, hsame] at hc'
      rw [hother c h1, ← Entry.str.inj hc'] at hc
      exact absurd hc (hno c)
    · rw [hother c h1] at hc; rw [hother c' h2] at hc'
      exact h.unique c c' v hc hc'

end

end Sys2Proof.Machine
end

