-- ==== Sys2Proof/Laws/Encoding.lean ====
section
/-! SUPPORT. Words as numbers: a command word and its fields, and the STATUS word. -/

namespace Sys2Proof

theorem toNat_append_eq {m n : Nat} (x : BitVec m) (y : BitVec n) : (x ++ y).toNat = x.toNat * 2 ^ n + y.toNat := by
  rw [BitVec.toNat_append, ← Nat.shiftLeft_add_eq_or_of_lt y.isLt, Nat.shiftLeft_eq]

theorem toWord_toNat (f : CmdFields) : f.toWord.toNat = f.op.toNat * 4096 + f.rsv.toNat * 256 + f.data.toNat := by
  rw [show f.toWord = f.op ++ f.rsv ++ f.data from rfl]
  simp only [toNat_append_eq]
  omega

/-- The fields of a word make up the word. -/
theorem toWord_ofWord (w : CmdWord) : (CmdFields.ofWord w).toWord = w := by
  apply BitVec.eq_of_toNat_eq
  rw [toWord_toNat]
  simp [CmdFields.ofWord, Nat.shiftRight_eq_div_pow]
  omega

/-- The word made of fields has those fields. -/
theorem ofWord_toWord (f : CmdFields) : CmdFields.ofWord f.toWord = f := by
  have h := toWord_toNat f
  obtain ⟨o, r, d⟩ := f
  simp only [CmdFields.ofWord, CmdFields.mk.injEq]
  simp only at h
  refine ⟨?_, ?_, ?_⟩ <;> apply BitVec.eq_of_toNat_eq <;>
    simp only [BitVec.extractLsb'_toNat, Nat.shiftRight_eq_div_pow, h] <;> omega

/-- The STATUS word as the sum of its fields at their places (R32). -/
theorem Machine.statusWord_toNat (next : BitVec 10) (w9 : Bool) (cnt : BitVec 5) (cause : BitVec 4)
    (pendValid dictFull : Bool) (st : BitVec 2) :
    (Machine.statusWord next w9 cnt cause pendValid dictFull st).toNat =
      next.toNat * 2 ^ 16 + w9.toNat * 2 ^ 13 + cnt.toNat * 2 ^ 8 + cause.toNat * 2 ^ 4 + pendValid.toNat * 2 ^ 3 +
        dictFull.toNat * 2 ^ 2 + st.toNat := by
  rw [Machine.statusWord]
  simp only [toNat_append_eq, BitVec.toNat_ofBool]
  simp
  omega

end Sys2Proof
end

