-- ==== Sys2Proof/Laws/Final.lean ====
section
/-! SUPPORT. What an accepted command leaves, field by field, so that no proof unfolds it; what every command
leaves alone; and what a step can do to the dictionary. -/

namespace Sys2Proof.Machine

theorem commandFinal_byte (b : Byte) (s : State) :
    commandFinal (.byte b) s = byteFinal b s (dictLookup s.dict (s.cand ++ [b])) := by
  rw [commandFinal]

@[simp] theorem startFinal_st (s : State) : (commandFinal .start s).st = .stream := rfl
@[simp] theorem startFinal_cause (s : State) : (commandFinal .start s).cause = s.cause := rfl
@[simp] theorem startFinal_dict (s : State) : (commandFinal .start s).dict = s.dict := rfl
@[simp] theorem startFinal_next (s : State) : (commandFinal .start s).next = s.next := rfl
@[simp] theorem startFinal_cand (s : State) : (commandFinal .start s).cand = s.cand := rfl
@[simp] theorem startFinal_pend (s : State) : (commandFinal .start s).pend = s.pend := rfl
@[simp] theorem startFinal_acc (s : State) : (commandFinal .start s).acc = s.acc := rfl
@[simp] theorem startFinal_cnt (s : State) : (commandFinal .start s).cnt = s.cnt := rfl
@[simp] theorem startFinal_width (s : State) : (commandFinal .start s).width = s.width := rfl
@[simp] theorem startFinal_out (s : State) : (commandFinal .start s).out = s.out ++ headerBytes := rfl
@[simp] theorem startFinal_cfg (s : State) : (commandFinal .start s).cfg = s.cfg := rfl
@[simp] theorem startFinal_host (s : State) : (commandFinal .start s).host = s.host := rfl
@[simp] theorem startFinal_sink (s : State) : (commandFinal .start s).sink = s.sink.drop 3 := rfl
@[simp] theorem startFinal_delivered (s : State) : (commandFinal .start s).delivered = s.delivered ++ headerBytes := rfl
@[simp] theorem startFinal_reads (s : State) : (commandFinal .start s).reads = s.reads := rfl
@[simp] theorem startFinal_draws (s : State) : (commandFinal .start s).draws = s.draws := rfl

@[simp] theorem hitFinal_st (b : Byte) (k : Code) (s : State) : (byteFinal b s (some k)).st = s.st := rfl
@[simp] theorem hitFinal_cause (b : Byte) (k : Code) (s : State) : (byteFinal b s (some k)).cause = s.cause := rfl
@[simp] theorem hitFinal_dict (b : Byte) (k : Code) (s : State) : (byteFinal b s (some k)).dict = s.dict := rfl
@[simp] theorem hitFinal_next (b : Byte) (k : Code) (s : State) : (byteFinal b s (some k)).next = s.next := rfl
@[simp] theorem hitFinal_cand (b : Byte) (k : Code) (s : State) : (byteFinal b s (some k)).cand = s.cand ++ [b] := rfl
@[simp] theorem hitFinal_pend (b : Byte) (k : Code) (s : State) : (byteFinal b s (some k)).pend = some k := rfl
@[simp] theorem hitFinal_acc (b : Byte) (k : Code) (s : State) : (byteFinal b s (some k)).acc = s.acc := rfl
@[simp] theorem hitFinal_cnt (b : Byte) (k : Code) (s : State) : (byteFinal b s (some k)).cnt = s.cnt := rfl
@[simp] theorem hitFinal_width (b : Byte) (k : Code) (s : State) : (byteFinal b s (some k)).width = s.width := rfl
@[simp] theorem hitFinal_out (b : Byte) (k : Code) (s : State) : (byteFinal b s (some k)).out = s.out := rfl
@[simp] theorem hitFinal_cfg (b : Byte) (k : Code) (s : State) : (byteFinal b s (some k)).cfg = s.cfg := rfl
@[simp] theorem hitFinal_host (b : Byte) (k : Code) (s : State) : (byteFinal b s (some k)).host = s.host := rfl
@[simp] theorem hitFinal_sink (b : Byte) (k : Code) (s : State) : (byteFinal b s (some k)).sink = s.sink := rfl
@[simp] theorem hitFinal_delivered (b : Byte) (k : Code) (s : State) : (byteFinal b s (some k)).delivered = s.delivered := rfl
@[simp] theorem hitFinal_reads (b : Byte) (k : Code) (s : State) : (byteFinal b s (some k)).reads = s.reads := rfl
@[simp] theorem hitFinal_draws (b : Byte) (k : Code) (s : State) : (byteFinal b s (some k)).draws = s.draws := rfl

@[simp] theorem missFinal_st (b : Byte) (s : State) : (byteFinal b s none).st = s.st := rfl
@[simp] theorem missFinal_cause (b : Byte) (s : State) : (byteFinal b s none).cause = s.cause := rfl
@[simp] theorem missFinal_dict (b : Byte) (s : State) : (byteFinal b s none).dict = (learn (s.cand ++ [b]) s).dict := rfl
@[simp] theorem missFinal_next (b : Byte) (s : State) : (byteFinal b s none).next = (learn (s.cand ++ [b]) s).next := rfl
@[simp] theorem missFinal_cand (b : Byte) (s : State) : (byteFinal b s none).cand = [b] := rfl
@[simp] theorem missFinal_pend (b : Byte) (s : State) : (byteFinal b s none).pend = dictLookup (learn (s.cand ++ [b]) s).dict [b] := by
  simp only [byteFinal]
@[simp] theorem missFinal_acc (b : Byte) (s : State) : (byteFinal b s none).acc = (putsRegs (pendingCodes s.pend s.cand) s.pack).acc := rfl
@[simp] theorem missFinal_cnt (b : Byte) (s : State) : (byteFinal b s none).cnt = (putsRegs (pendingCodes s.pend s.cand) s.pack).cnt := rfl
@[simp] theorem missFinal_width (b : Byte) (s : State) : (byteFinal b s none).width = (putsRegs (pendingCodes s.pend s.cand) s.pack).width := rfl
@[simp] theorem missFinal_out (b : Byte) (s : State) : (byteFinal b s none).out = s.out ++ putsBytes (pendingCodes s.pend s.cand) s.pack := rfl
@[simp] theorem missFinal_cfg (b : Byte) (s : State) : (byteFinal b s none).cfg = s.cfg := rfl
@[simp] theorem missFinal_host (b : Byte) (s : State) : (byteFinal b s none).host = s.host := rfl
@[simp] theorem missFinal_sink (b : Byte) (s : State) : (byteFinal b s none).sink = s.sink.drop (putsBytes (pendingCodes s.pend s.cand) s.pack).length := rfl
@[simp] theorem missFinal_delivered (b : Byte) (s : State) : (byteFinal b s none).delivered = s.delivered ++ putsBytes (pendingCodes s.pend s.cand) s.pack := rfl
@[simp] theorem missFinal_reads (b : Byte) (s : State) : (byteFinal b s none).reads = s.reads := rfl
@[simp] theorem missFinal_draws (b : Byte) (s : State) : (byteFinal b s none).draws = s.draws := rfl

@[simp] theorem endFinal_st (s : State) : (commandFinal .endInput s).st = .done := rfl
@[simp] theorem endFinal_cause (s : State) : (commandFinal .endInput s).cause = s.cause := rfl
@[simp] theorem endFinal_dict (s : State) : (commandFinal .endInput s).dict = s.dict := rfl
@[simp] theorem endFinal_next (s : State) : (commandFinal .endInput s).next = s.next := rfl
@[simp] theorem endFinal_cand (s : State) : (commandFinal .endInput s).cand = s.cand := rfl
@[simp] theorem endFinal_pend (s : State) : (commandFinal .endInput s).pend = s.pend := rfl
@[simp] theorem endFinal_acc (s : State) : (commandFinal .endInput s).acc = (putsRegs (endCodes s) s.pack).acc := rfl
@[simp] theorem endFinal_cnt (s : State) : (commandFinal .endInput s).cnt = (putsRegs (endCodes s) s.pack).cnt := rfl
@[simp] theorem endFinal_width (s : State) : (commandFinal .endInput s).width = (putsRegs (endCodes s) s.pack).width := rfl
@[simp] theorem endFinal_out (s : State) : (commandFinal .endInput s).out = s.out ++ putsBytes (endCodes s) s.pack := rfl
@[simp] theorem endFinal_cfg (s : State) : (commandFinal .endInput s).cfg = s.cfg := rfl
@[simp] theorem endFinal_host (s : State) : (commandFinal .endInput s).host = s.host := rfl
@[simp] theorem endFinal_sink (s : State) : (commandFinal .endInput s).sink = s.sink.drop (putsBytes (endCodes s) s.pack).length := rfl
@[simp] theorem endFinal_delivered (s : State) : (commandFinal .endInput s).delivered = s.delivered ++ putsBytes (endCodes s) s.pack := rfl
@[simp] theorem endFinal_reads (s : State) : (commandFinal .endInput s).reads = s.reads := rfl
@[simp] theorem endFinal_draws (s : State) : (commandFinal .endInput s).draws = s.draws := rfl

/-- OUT grows by the command's bytes, and so does what the sink has. -/
theorem commandFinal_out (i : Instr) (s : State) :
    (commandFinal i s).out = s.out ++ commandBytes i s ∧
      (commandFinal i s).delivered = s.delivered ++ commandBytes i s := by
  cases i with
  | start => exact ⟨rfl, rfl⟩
  | byte b =>
    rw [commandFinal_byte, commandBytes]
    cases dictLookup s.dict (s.cand ++ [b]) with
    | none => exact ⟨rfl, rfl⟩
    | some k => simp [byteBytes]
  | endInput => exact ⟨rfl, rfl⟩

/-- No command touches CAUSE short of a fault, nor the surroundings, nor the draw counter. -/
theorem commandFinal_around (i : Instr) (s : State) :
    (commandFinal i s).cause = s.cause ∧ (commandFinal i s).surroundings = s.surroundings ∧
      (commandFinal i s).draws = s.draws := by
  cases i with
  | start => exact ⟨rfl, rfl, rfl⟩
  | byte b =>
    rw [commandFinal_byte]
    cases dictLookup s.dict (s.cand ++ [b]) <;> exact ⟨rfl, rfl, rfl⟩
  | endInput => exact ⟨rfl, rfl, rfl⟩

/-- A command's effect on D and NEXT: none, or a missed candidate stored at NEXT. -/
theorem commandFinal_dict (i : Instr) (s : State) :
    ((commandFinal i s).dict = s.dict ∧ (commandFinal i s).next = s.next) ∨
    ∃ b, i = .byte b ∧ dictLookup s.dict (s.cand ++ [b]) = none ∧ s.next.toNat < 512 ∧
      (commandFinal i s).dict = dictWrite s.dict (s.next.truncate 9) (.str (s.cand ++ [b])) ∧
      (commandFinal i s).next = s.next + 1 := by
  cases i with
  | start => exact .inl ⟨rfl, rfl⟩
  | endInput => exact .inl ⟨rfl, rfl⟩
  | byte b =>
    rw [commandFinal_byte]
    cases hl : dictLookup s.dict (s.cand ++ [b]) with
    | some k => exact .inl ⟨rfl, rfl⟩
    | none =>
      rw [missFinal_dict, missFinal_next]
      by_cases hn : s.next.toNat < 512
      · rw [learn_free _ hn]
        exact .inr ⟨b, rfl, hl, hn, rfl, rfl⟩
      · rw [learn_full _ (by omega)]
        exact .inl ⟨rfl, rfl⟩

/-- All a command can do: be ignored, fault precisely, run, or be stopped by the sink. -/
theorem exec_cases (i : Instr) (s : State) :
    (exec i s = .next s ∧ s.st = .fault) ∨
    (exec i s = .next { s with st := .fault, cause := .sequence } ∧ s.st ≠ .fault ∧ accepted s.st i = false) ∨
    (exec i s = .next (commandFinal i s) ∧ accepted s.st i = true) ∨
    ∃ n, exec i s = .next (refuseByte (acceptBytes ((commandBytes i s).take n) s)) ∧ accepted s.st i = true := by
  by_cases hf : s.st = .fault
  · exact .inl ⟨exec_inFault i hf, hf⟩
  · cases ha : accepted s.st i with
    | false => exact .inr (.inl ⟨exec_outOfSequence hf ha, hf, rfl⟩)
    | true =>
      rw [exec_accepted ha]
      cases refusalWithin (commandBytes i s).length s.sink with
      | none => exact .inr (.inr (.inl ⟨rfl, rfl⟩))
      | some n => exact .inr (.inr (.inr ⟨n, rfl, rfl⟩))

theorem ready_all {s : State} (h : ∀ a ∈ s.sink, a = SinkAnswer.accept) (n : Nat) : s.SinkReady n :=
  fun a ha => h a (List.mem_of_mem_take ha)

theorem ready_le {s : State} {m n : Nat} (h : s.SinkReady n) (hmn : m ≤ n) : s.SinkReady m :=
  fun a ha => h a (List.take_subset_take_left _ hmn ha)

/-- A step that is no reset and does not end in SINK_ERROR runs an accepted command, or leaves the engine's
registers and OUT alone. -/
theorem step_cases {s t : State} (he : step s = .next t) (hnr : ¬ s.ResetsNext) (hc : t.cause ≠ .sinkError) :
    (t.registers = s.registers ∧ t.out = s.out ∧ (t.cause = s.cause ∨ s.st ≠ .fault)) ∨
    ∃ w i rest, s.host = .command w :: rest ∧ decode w = .ok i ∧ accepted s.st i = true ∧
      t = commandFinal i { s with host := rest } := by
  rcases hh : s.host with _ | ⟨a, rest⟩
  · rw [step_idle hh] at he
    left; rw [Host.Outcome.next.inj he]; exact ⟨rfl, rfl, .inl rfl⟩
  · rw [step_action hh] at he
    rcases runAction_cases a { s with host := rest } with
      ⟨h, -⟩ | ⟨h, h2⟩ | ⟨h, -⟩ | ⟨w, c, -, hf, -, h⟩ | ⟨w, i, h2, h3, h4, -, h⟩ | ⟨w, i, n, -, -, -, -, -, h⟩ <;>
      have he := Host.Outcome.next.inj (h.symm.trans he)
    · left; rw [← he]; exact ⟨rfl, rfl, .inl rfl⟩
    · exact absurd ⟨rest, by rw [hh, h2]⟩ hnr
    · left; rw [← he]; exact ⟨rfl, rfl, .inl rfl⟩
    · left; rw [← he]; exact ⟨rfl, rfl, .inr hf⟩
    · right; exact ⟨w, i, rest, by rw [h2], h3, h4, he.symm⟩
    · exact absurd (by rw [← he]; simp [refuseByte]) hc

/-- A run of the machine behind the host's interface, one step at a time. -/
theorem core_run_succ {s t : State} (h : step s = .next t) (n : Nat) : core.run (n + 1) s = core.run n t := by
  have key : ∀ (M : Host.Core) (s t : M.State), M.step s = .next t → M.run (n + 1) s = M.run n t := by
    intro M s t h; simp only [Host.Core.run, h]
  exact key core s t h

theorem registers_eq {s t : State} : t.registers = s.registers ↔
    t.dict = s.dict ∧ t.next = s.next ∧ t.cand = s.cand ∧ t.pend = s.pend ∧ t.acc = s.acc ∧ t.cnt = s.cnt ∧
      t.width = s.width := by
  simp [State.registers]

end Sys2Proof.Machine
end

