-- ==== Sys2Proof/Laws/Invariant.lean ====
section
/-! SUPPORT. What each thing a step can do leaves of the invariant: a reset, a precise fault, a refused byte,
an accepted command. -/

namespace Sys2Proof.Machine

theorem firstWidth_cases (c : Config) : c.firstWidth.bits = 8 ∨ c.firstWidth.bits = 9 := by
  rcases c with ⟨_ | _⟩ <;> simp [FirstWidth.bits]

/-- An accepted command is one in IDLE or STREAM. -/
theorem accepted_cases {i : Instr} {s : State} (ha : accepted s.st i = true) :
    (i = .start ∧ s.st = .idle) ∨ ((∃ b, i = .byte b) ∧ s.st = .stream) ∨ (i = .endInput ∧ s.st = .stream) := by
  cases i <;> cases hs : s.st <;> simp [hs, accepted] at ha ⊢

theorem accepted_not_fault {i : Instr} {s : State} (ha : accepted s.st i = true) : s.st ≠ .fault := by
  rcases accepted_cases ha with ⟨-, h⟩ | ⟨-, h⟩ | ⟨-, h⟩ <;> simp [h]

/-- Where a command is accepted the engine's invariant holds. -/
theorem engineInv_of_accepted {i : Instr} {s : State} (hI : s.Inv) (ha : accepted s.st i = true) : s.EngineInv := by
  have := hI.faultCause.2 (accepted_not_fault ha)
  exact hI.engine (by rw [this]; decide)

theorem suffix_append_right {a b c : Str} (h : a <:+ b) : a ++ c <:+ b ++ c := by
  obtain ⟨r, hr⟩ := h
  exact ⟨r, by rw [← List.append_assoc, hr]⟩

/-- The engine's invariant after a reset (R44). -/
theorem resetEngine_engineInv (s : State) : (resetEngine s).EngineInv where
  dict := dictInv_initial
  pending := .inl ⟨rfl, rfl, by simp⟩
  cntSmall := by simp
  firstCode _ := ⟨rfl, rfl, rfl, by simp⟩
  laterCodes h := by simp at h
  header := .inl ⟨rfl, rfl⟩
  idle _ := rfl
  started h := by simp at h
  aligned h := by simp at h

/-- The invariant depends on the engine's fields, the parameter and the sink's record alone. -/
theorem State.Inv.congr {s t : State} (h : s.Inv) (hst : t.st = s.st) (hcause : t.cause = s.cause)
    (hdict : t.dict = s.dict) (hnext : t.next = s.next) (hcand : t.cand = s.cand) (hpend : t.pend = s.pend)
    (hcnt : t.cnt = s.cnt) (hwidth : t.width = s.width) (hout : t.out = s.out) (hcfg : t.cfg = s.cfg)
    (hdel : t.delivered = s.delivered) : t.Inv := by
  refine ⟨hdict ▸ h.canonical, by rw [hst, hcause]; exact h.faultCause, by rw [hout, hdel]; exact h.delivered,
    fun hc => ?_⟩
  obtain ⟨_, _, _, _, _, _, _, _, _⟩ := h.engine (hcause ▸ hc)
  constructor <;> simp only [hst, hdict, hnext, hcand, hpend, hcnt, hwidth, hout, hcfg] <;> assumption

/-- A precise fault keeps the engine's invariant: only ST and CAUSE change (R185, R186). -/
theorem engineInv_precise {s : State} (h : s.EngineInv) (c : Cause) :
    ({ s with st := .fault, cause := c } : State).EngineInv where
  dict := h.dict
  pending := h.pending
  cntSmall := h.cntSmall
  firstCode := h.firstCode
  laterCodes := h.laterCodes
  header := h.header
  idle := by simp
  started := by simp
  aligned := by simp

/-- A refused byte: whatever the free values are, the invariant says nothing of them (R184). -/
theorem refuseByte_inv {s : State} (bs : List Byte) (hd : s.out <:+ s.delivered) :
    (refuseByte (acceptBytes bs s)).Inv where
  canonical := by rw [refuseByte, raiseFault_sinkError, unspecified_dict]; exact dictWf_dictOf _
  faultCause := by simp [refuseByte]
  delivered := by
    simp only [refuseByte, raiseFault_out, raiseFault_delivered, acceptBytes]
    exact suffix_append_right hd
  engine h := by simp [refuseByte] at h

/-- What packing one or more codes leaves of the packer and of OUT's length (R29, R39, R41). -/
theorem packed_counts {s : State} (h : s.EngineInv) (hst : s.st = .stream) (x : Nat) (xs : List Nat) :
    (putsRegs (x :: xs) s.pack).cnt.toNat ≤ 7 ∧ (putsRegs (x :: xs) s.pack).width = 9 ∧
      3 < (s.out ++ putsBytes (x :: xs) s.pack).length ∧
      ∃ n, 8 * ((s.out ++ putsBytes (x :: xs) s.pack).length - 3) + (putsRegs (x :: xs) s.pack).cnt.toNat =
        s.cfg.firstWidth.bits.toNat + 9 * n := by
  have hcount := putsBytes_count x xs s.pack
  have hcnt := putsRegs_cnt_small x xs s.pack
  have hout : 3 ≤ s.out.length := (h.started (.inl hst)).length_le
  rw [show s.pack.cnt = s.cnt from rfl, show s.pack.width = s.width from rfl] at hcount
  have hw8 : 8 ≤ s.cfg.firstWidth.bits.toNat := by
    rcases firstWidth_cases s.cfg with h | h <;> rw [h] <;> decide
  refine ⟨hcnt, putsRegs_width x xs s.pack, ?_, ?_⟩ <;> rw [List.length_append]
  · rcases Nat.lt_or_ge 3 s.out.length with h3 | h3
    · omega
    · obtain ⟨hw, -⟩ := h.firstCode h3
      rw [hw] at hcount
      omega
  · rcases Nat.lt_or_ge 3 s.out.length with h3 | h3
    · obtain ⟨hw, n, hn⟩ := h.laterCodes h3
      have : s.width.toNat = 9 := by rw [hw]; rfl
      exact ⟨n + 1 + xs.length, by omega⟩
    · obtain ⟨hw, hc, -⟩ := h.firstCode h3
      have : s.cnt.toNat = 0 := by rw [hc]; rfl
      rw [hw] at hcount
      exact ⟨xs.length, by omega⟩

/-- On a miss a code is pending, and it is the candidate's (R123). -/
theorem pending_of_miss {s : State} (h : s.EngineInv) {b : Byte}
    (hl : dictLookup s.dict (s.cand ++ [b]) = none) : ∃ k, s.pend = some k ∧ dictRead s.dict k = .str s.cand := by
  rcases h.pending with ⟨-, hcand, -⟩ | hp
  · rw [hcand, List.nil_append, h.dict.lookup_literal b] at hl; cases hl
  · exact hp

/-- Learning the missed candidate keeps the dictionary's invariant and its canonical form. -/
theorem learn_inv {s : State} (hI : s.Inv) (h : s.EngineInv) {b : Byte}
    (hl : dictLookup s.dict (s.cand ++ [b]) = none) :
    DictInv (learn (s.cand ++ [b]) s).dict (learn (s.cand ++ [b]) s).next ∧
      dictWf (learn (s.cand ++ [b]) s).dict = true := by
  obtain ⟨k, -, hk⟩ := pending_of_miss h hl
  by_cases hn : s.next.toNat < 512
  · rw [learn_free _ hn]
    exact ⟨h.dict.insert hI.canonical hn hk hl, dictWf_write hI.canonical _ _⟩
  · rw [learn_full _ (by omega)]
    exact ⟨h.dict, hI.canonical⟩

/-- After the final code and the pads no bit is pending (R142, R144). -/
theorem endCodes_aligned {s : State} {k : Code} (hk : s.pend = some k) :
    (putsRegs (endCodes s) s.pack).cnt = 0 := by
  have hcodes : endCodes s = k.toNat :: List.replicate (padCount 8 (putsRegs [k.toNat] s.pack)) 256 := by
    simp [endCodes, hk, pendingCodes]
  have h1 := putsBytes_count k.toNat [] s.pack
  have h2 := putsBytes_count k.toNat (List.replicate (padCount 8 (putsRegs [k.toNat] s.pack)) 256) s.pack
  have h3 := padCount_steady (putsRegs_width k.toNat [] s.pack) (putsRegs_cnt_small k.toNat [] s.pack)
  have h4 := putsRegs_cnt_small k.toNat (List.replicate (padCount 8 (putsRegs [k.toNat] s.pack)) 256) s.pack
  have h5 := putsRegs_cnt_small k.toNat [] s.pack
  rw [List.length_replicate] at h2
  simp only [List.length_nil] at h1
  rw [hcodes]
  apply BitVec.eq_of_toNat_eq
  show _ = 0
  omega

/-- With no byte fed END packs nothing (R122, R123). -/
theorem endCodes_empty {s : State} (h : s.EngineInv) (hp : s.pend = none) :
    endCodes s = [] ∧ s.cnt = 0 := by
  rcases h.pending with ⟨-, hcand, h3⟩ | ⟨k, hk, -⟩
  · obtain ⟨-, hc, -⟩ := h.firstCode h3
    have hc' : s.pack.cnt = 0 := hc
    refine ⟨?_, hc⟩
    simp [endCodes, hp, hcand, pendingCodes, putsRegs, padCount_aligned hc']
  · rw [hk] at hp; cases hp

theorem commandFinal_endInput_empty {s : State} (h : endCodes s = []) :
    commandFinal .endInput s = { s with st := .done } := by
  simp only [commandFinal, h, putsBytes, putsRegs, acceptBytes_nil, withPack_pack]

theorem start_inv {s : State} (hI : s.Inv) (h : s.EngineInv) (hcause : s.cause = .noFault) (hidle : s.st = .idle) :
    (commandFinal .start s).Inv := by
  have hout := h.idle hidle
  have hp : headerBytes <+: (commandFinal .start s).out := by simp [commandFinal, acceptBytes, hout]
  have hlen : (commandFinal .start s).out.length = 3 := by simp [commandFinal, acceptBytes, hout, headerBytes]
  refine ⟨hI.canonical, by simp [commandFinal, acceptBytes, hcause], suffix_append_right hI.delivered, fun _ => ?_⟩
  exact
    { dict := h.dict
      pending := by
        rcases h.pending with ⟨h1, h2, -⟩ | h1
        · exact .inl ⟨h1, h2, by omega⟩
        · exact .inr h1
      cntSmall := h.cntSmall
      firstCode := fun _ => h.firstCode (by simp [hout])
      laterCodes := fun _ => by omega
      header := .inr hp
      idle := fun h => by simp [commandFinal] at h
      started := fun _ => hp
      aligned := fun h => by simp [commandFinal] at h }

theorem byteHit_inv {s : State} (hI : s.Inv) (h : s.EngineInv) (hs : s.st = .stream) {b : Byte} {k : Code}
    (hl : dictLookup s.dict (s.cand ++ [b]) = some k) : (byteFinal b s (some k)).Inv := by
  have hk := (dictLookup_some hl).1
  refine ⟨hI.canonical, hI.faultCause, hI.delivered, fun _ => ?_⟩
  exact
    { dict := h.dict
      pending := .inr ⟨k, rfl, hk⟩
      cntSmall := h.cntSmall
      firstCode := fun h3 => by
        obtain ⟨h1, h2, h4, -⟩ := h.firstCode h3
        refine ⟨h1, h2, h4, ?_⟩
        rcases h.dict.stored_cases hk with ⟨-, hv⟩ | ⟨hge, -⟩
        · simp only [byteFinal]; rw [hv]; simp
        · have := (h.dict.stored hk).1
          rw [h4, show (257 : BitVec 10).toNat = 257 from rfl] at this
          omega
      laterCodes := h.laterCodes
      header := .inr (h.started (.inl hs))
      idle := fun h => by simp [byteFinal, hs] at h
      started := h.started
      aligned := h.aligned }

theorem byteMiss_inv {s : State} (hI : s.Inv) (h : s.EngineInv) (hs : s.st = .stream) {b : Byte}
    (hl : dictLookup s.dict (s.cand ++ [b]) = none) : (byteFinal b s none).Inv := by
  obtain ⟨k, hk, -⟩ := pending_of_miss h hl
  obtain ⟨hd, hwf⟩ := learn_inv hI h hl
  obtain ⟨hcnt, hwidth, hlong, hbits⟩ := packed_counts h hs k.toNat []
  have hhead : headerBytes <+: s.out ++ putsBytes [k.toNat] s.pack :=
    (h.started (.inl hs)).trans (List.prefix_append _ _)
  have hlit := hd.lookup_literal b
  have hread := (dictLookup_some hlit).1
  simp only [byteFinal, hk, pendingCodes]
  refine ⟨hwf, by simpa [acceptBytes] using hI.faultCause, suffix_append_right hI.delivered, fun _ => ?_⟩
  constructor
  · exact hd
  · right; simp only; exact ⟨_, hlit, hread⟩
  · exact hcnt
  · intro h3; exact absurd hlong (Nat.not_lt.2 h3)
  · intro _; exact ⟨hwidth, hbits⟩
  · exact .inr hhead
  · intro h; simp [acceptBytes, hs] at h
  · intro _; exact hhead
  · intro h; simp [acceptBytes, hs] at h

theorem endInput_inv {s : State} (hI : s.Inv) (h : s.EngineInv) (hcause : s.cause = .noFault) (hs : s.st = .stream) :
    (commandFinal .endInput s).Inv := by
  cases hp : s.pend with
  | none =>
    obtain ⟨hcodes, hc⟩ := endCodes_empty h hp
    rw [commandFinal_endInput_empty hcodes]
    refine ⟨hI.canonical, by simp [hcause], hI.delivered, fun _ => ?_⟩
    exact
      { dict := h.dict
        pending := h.pending
        cntSmall := h.cntSmall
        firstCode := h.firstCode
        laterCodes := h.laterCodes
        header := .inr (h.started (.inl hs))
        idle := by simp
        started := fun _ => h.started (.inl hs)
        aligned := fun _ => hc }
  | some k =>
    have hzero := endCodes_aligned hp
    have hcodes : endCodes s = k.toNat :: List.replicate (padCount 8 (putsRegs [k.toNat] s.pack)) 256 := by
      simp [endCodes, hp, pendingCodes]
    obtain ⟨hcnt, hwidth, hlong, hbits⟩ :=
      packed_counts h hs k.toNat (List.replicate (padCount 8 (putsRegs [k.toNat] s.pack)) 256)
    rw [← hcodes] at hcnt hwidth hlong hbits
    have hhead : headerBytes <+: s.out ++ putsBytes (endCodes s) s.pack :=
      (h.started (.inl hs)).trans (List.prefix_append _ _)
    simp only [commandFinal]
    refine ⟨hI.canonical, by simp [acceptBytes, hcause], suffix_append_right hI.delivered, fun _ => ?_⟩
    constructor
    · exact h.dict
    · rcases h.pending with ⟨hn, -⟩ | hk
      · rw [hn] at hp; cases hp
      · exact .inr hk
    · exact hcnt
    · intro h3; exact absurd hlong (Nat.not_lt.2 h3)
    · intro _; exact ⟨hwidth, hbits⟩
    · exact .inr hhead
    · intro h; simp at h
    · intro _; exact hhead
    · intro _; exact hzero

/-- An accepted command with its bytes taken keeps the invariant. -/
theorem commandFinal_inv {i : Instr} {s : State} (hI : s.Inv) (ha : accepted s.st i = true) :
    (commandFinal i s).Inv := by
  have hcause := hI.faultCause.2 (accepted_not_fault ha)
  have h := hI.engine (by rw [hcause]; decide)
  rcases accepted_cases ha with ⟨rfl, hs⟩ | ⟨⟨b, rfl⟩, hs⟩ | ⟨rfl, hs⟩
  · exact start_inv hI h hcause hs
  · rw [commandFinal]
    cases hl : dictLookup s.dict (s.cand ++ [b]) with
    | some k => exact byteHit_inv hI h hs hl
    | none => exact byteMiss_inv hI h hs hl
  · exact endInput_inv hI h hcause hs

end Sys2Proof.Machine
end

