-- ==== Sys2Proof/Laws/PerInstr.lean ====
section
/-! SUPPORT. Statements about every command as syntax, one lemma per constructor. LegalWord: the command's
operand is in range, its fields pass every check of the format, and its word has exactly those fields
(R70, R71, R72). -/

namespace Sys2Proof.Laws.LegalWord

def Statement (i : Instr) : Prop :=
  i.wf = true ∧ i.fields.wf = true ∧ CmdFields.ofWord (encode i) = i.fields

theorem start : Statement .start :=
  ⟨rfl, rfl, ofWord_toWord _⟩

theorem byte (b : Byte) : Statement (.byte b) :=
  ⟨decide_eq_true (Nat.le_of_lt_succ b.isLt), rfl, ofWord_toWord _⟩

theorem endInput : Statement .endInput :=
  ⟨rfl, rfl, ofWord_toWord _⟩

end Sys2Proof.Laws.LegalWord
end

