-- ==== Sys2Proof/Tests/Slice0.lean ====
section
/-! SUPPORT. Tests: the checks of WellFormed refuse ill-formed fields; words written out from the spec's
encodings decode; one step of each command against the values of 95_test_vectors.md; and, for every statement
with hypotheses, a witness that meets them. -/

open Sys2Proof Sys2Proof.Machine

namespace Sys2Proof.Tests

/-! WellFormed: one ill-formed term per check. -/

theorem test_rsv_not_zero_is_refused :
    CmdFields.rsvOk ⟨2, 0b0001, 0x41⟩ = false ∧ CmdFields.wf ⟨2, 0b0001, 0x41⟩ = false := by decide

theorem test_reserved_op_is_refused :
    CmdFields.opOk ⟨0, 0, 0⟩ = false ∧ CmdFields.wf ⟨0, 0, 0⟩ = false ∧
      CmdFields.opOk ⟨4, 0, 0⟩ = false ∧ CmdFields.wf ⟨15, 0, 0⟩ = false := by decide

theorem test_data_on_start_or_end_is_refused :
    CmdFields.dataOk ⟨1, 0, 1⟩ = false ∧ CmdFields.wf ⟨1, 0, 1⟩ = false ∧
      CmdFields.dataOk ⟨3, 0, 0x80⟩ = false ∧ CmdFields.wf ⟨3, 0, 0x80⟩ = false := by decide

theorem test_legal_fields_are_accepted :
    CmdFields.wf ⟨1, 0, 0⟩ = true ∧ CmdFields.wf ⟨2, 0, 0xFF⟩ = true ∧ CmdFields.wf ⟨3, 0, 0⟩ = true := by decide

/-! Decode: the bit patterns of R71, bit by bit, and the illegal groups of R74. -/

theorem test_decode_start : decode 0b0001000000000000 = .ok .start := by rfl

theorem test_decode_byte : decode 0b0010000001000001 = .ok (.byte 0b01000001) := by rfl

theorem test_decode_byte_bit_order : decode 0b0010000010000110 = .ok (.byte 0x86) := by rfl

theorem test_decode_end : decode 0b0011000000000000 = .ok .endInput := by rfl

theorem test_decode_rsv_first : decode 0b0001111100000000 = .error .reservedBitsSet := by rfl

theorem test_decode_end_with_data : decode 0b0011000010000000 = .error .dataNotZero := by rfl

theorem test_decode_reserved_op : decode 0b0100000000000000 = .error .reservedOp := by rfl

/-! Small states. -/

/-- After reset, FIRST_WIDTH = 8. -/
def sIdle : State := State.resetWith ⟨.eight⟩

/-- After START. -/
def sStream : State := { sIdle with st := .stream, out := headerBytes, delivered := headerBytes }

/-- After START, BYTE 'A'. -/
def sA : State := { sStream with cand := [0x41], pend := some 65 }

/-- The same at FIRST_WIDTH = 9. -/
def sA9 : State := { sA with width := 9, cfg := ⟨.nine⟩ }

/-- After START, BYTE 'A', BYTE 'B' (V-L, P3): "AB" learned, 'B' pending. -/
def sAB : State :=
  { sStream with
    dict := [(257, .str [0x41, 0x42])], next := 258, cand := [0x42], pend := some 66, acc := 0x41, width := 9
    out := headerBytes ++ [0x41], delivered := headerBytes ++ [0x41] }

/-- The first session of P6 in FAULT. -/
def sFault : State := { sA with st := .fault, cause := .illegalCmd }

/-- The state an outcome leaves; the machine only ever answers next. -/
def after : Host.Outcome State Fault Refusal → State
  | .next t => t
  | .refused _ => sIdle

/-! One step of each command. -/

/-- P1: START from reset. -/
theorem test_start : (after (exec .start sIdle)).status = 0x01010001 ∧
    (after (exec .start sIdle)).out = [0x1F, 0x9D, 0x89] := by decide +kernel

/-- V-H-18: a second START. -/
theorem test_start_twice : (after (exec .start sStream)).status = 0x01010023 ∧
    (after (exec .start sStream)).out = [0x1F, 0x9D, 0x89] := by decide +kernel

/-- P1: BYTE 'A' hits. -/
theorem test_byte_hit : (after (exec (.byte 0x41) sStream)).status = 0x01010009 ∧
    (after (exec (.byte 0x41) sStream)).cand = [0x41] := by decide +kernel

/-- R165's example: BYTE 'B' after BYTE 'A' misses. -/
theorem test_byte_miss : (after (exec (.byte 0x42) sA)).status = 0x01022009 ∧
    after (exec (.byte 0x42) sA) = sAB := by decide +kernel

/-- P1 at FIRST_WIDTH = 8: END. -/
theorem test_end_at_width_8 : (after (exec .endInput sA)).status = 0x0101200A ∧
    (after (exec .endInput sA)).out = [0x1F, 0x9D, 0x89, 0x41] := by decide +kernel

/-- P1 at FIRST_WIDTH = 9: END and seven pad codes. -/
theorem test_end_with_pads : (after (exec .endInput sA9)).status = 0x0101200A ∧
    (after (exec .endInput sA9)).out = [0x1F, 0x9D, 0x89, 0x20, 0xC0, 0x20, 0x10, 0x08, 0x04, 0x02, 0x01, 0x00] := by
  decide +kernel

/-- P6: the illegal word 0x4000. -/
theorem test_illegal_word : (after (step (issueWord 0x4000 sA))).status = 0x0101001B := by decide +kernel

/-- R81 and P6: a comment, a character, an illegal word, the mark RESET. -/
theorem test_assemble : assemble ["RESET".toList, "START        ; 1000".toList, "BYTE 'A'".toList,
    "0x4000       ; an illegal word".toList, "BYTES 0x01, 255".toList] =
    some [.reset, .command 0x1000, .command 0x2041, .command 0x4000, .command 0x2001, .command 0x20FF] := by
  decide +kernel

/-! Dictionaries for the witnesses. -/

/-- A dictionary of pairs (P5): the code c in 257 and up, below the cursor n, holds [c - 257, c - 256]. -/
def pairEntry (n : Nat) (c : Code) : Entry :=
  if c.toNat < 257 then initialEntry c
  else if c.toNat < n then .str [BitVec.ofNat 8 (c.toNat - 257), BitVec.ofNat 8 (c.toNat - 256)] else .empty

/-- A dictionary of runs of 0x41: the code c in 257 and up, below the cursor n, holds c - 255 of them. -/
def runEntry (n : Nat) (c : Code) : Entry :=
  if c.toNat < 257 then initialEntry c
  else if c.toNat < n then .str (List.replicate (c.toNat - 255) 0x41) else .empty

def pairDict (n : BitVec 10) : Dict := dictOf (pairEntry n.toNat)

def runDict (n : BitVec 10) : Dict := dictOf (runEntry n.toNat)

theorem pairDict_read (n : BitVec 10) (c : Code) : dictRead (pairDict n) c = pairEntry n.toNat c := by
  rw [pairDict, dictRead_dictOf]

theorem runDict_read (n : BitVec 10) (c : Code) : dictRead (runDict n) c = runEntry n.toNat c := by
  rw [runDict, dictRead_dictOf]

theorem pairDict_wf (n : BitVec 10) : dictWf (pairDict n) = true := by
  rw [pairDict]; exact dictWf_dictOf _

theorem runDict_wf (n : BitVec 10) : dictWf (runDict n) = true := by
  rw [runDict]; exact dictWf_dictOf _

theorem code_256 : (256 : Code).toNat = 256 := rfl

theorem low_cases {c : Code} (h : c.toNat < 257) : c.toNat < 256 ∨ c = 256 := by
  by_cases h' : c.toNat < 256
  · exact .inl h'
  · exact .inr (BitVec.eq_of_toNat_eq (by rw [code_256]; omega))

theorem low_str {c : Code} {v : Str} (h : c.toNat < 257) (hv : initialEntry c = .str v) :
    c.toNat < 256 ∧ v = [c.truncate 8] := by
  rcases low_cases h with h | rfl
  · rw [initialEntry_literal h] at hv; exact ⟨h, (Entry.str.inj hv).symm⟩
  · rw [initialEntry_reserved] at hv; cases hv

theorem literal_inj {c c' : Code} (h : c.toNat < 256) (h' : c'.toNat < 256)
    (he : (c.truncate 8 : Byte) = c'.truncate 8) : c = c' := by
  have := congrArg BitVec.toNat he
  simp only [BitVec.truncate_eq_setWidth, BitVec.toNat_setWidth] at this
  exact BitVec.eq_of_toNat_eq (by omega)

theorem pairEntry_str {n : Nat} {c : Code} {v : Str} (h : pairEntry n c = .str v) :
    (c.toNat < 256 ∧ v = [c.truncate 8]) ∨
      (257 ≤ c.toNat ∧ v = [BitVec.ofNat 8 (c.toNat - 257), BitVec.ofNat 8 (c.toNat - 256)]) := by
  unfold pairEntry at h
  split at h
  · rename_i hlt; exact .inl (low_str hlt h)
  · split at h
    · exact .inr ⟨by omega, (Entry.str.inj h).symm⟩
    · cases h

theorem pairInv {n : BitVec 10} (h1 : 257 ≤ n.toNat) (h2 : n.toNat ≤ 512) : DictInv (pairDict n) n where
  literal c h := by rw [pairDict_read, pairEntry, if_pos (by omega), initialEntry_literal h]
  reserved := by rw [pairDict_read, pairEntry, if_pos (by decide), initialEntry_reserved]
  cursor := ⟨h1, h2⟩
  learned c hc hn := by
    have := c.isLt
    refine ⟨BitVec.ofNat 9 (c.toNat - 257), [BitVec.ofNat 8 (c.toNat - 257)], BitVec.ofNat 8 (c.toNat - 256), ?_, by simp, ?_, ?_⟩
    · simp only [BitVec.toNat_ofNat]; omega
    · have hj : (BitVec.ofNat 9 (c.toNat - 257)).toNat = c.toNat - 257 := by simp only [BitVec.toNat_ofNat]; omega
      rw [pairDict_read, pairEntry, if_pos (by omega), initialEntry_literal (by omega)]
      refine congrArg (fun b : Byte => Entry.str [b]) (BitVec.eq_of_toNat_eq ?_)
      simp
    · rw [pairDict_read, pairEntry, if_neg (by omega), if_pos hn]; rfl
  unfilled c hc := by rw [pairDict_read, pairEntry, if_neg (by omega), if_neg (by omega)]
  unique c c' v hc hc' := by
    rw [pairDict_read] at hc hc'
    rcases pairEntry_str hc with ⟨h1, rfl⟩ | ⟨h1, rfl⟩ <;> rcases pairEntry_str hc' with ⟨h2, hv⟩ | ⟨h2, hv⟩
    · exact literal_inj h1 h2 (List.cons.inj hv).1
    · simp at hv
    · simp at hv
    · have := congrArg BitVec.toNat (List.cons.inj hv).1
      simp only [BitVec.toNat_ofNat] at this
      have := c.isLt
      have := c'.isLt
      exact BitVec.eq_of_toNat_eq (by omega)

theorem runEntry_str {n : Nat} {c : Code} {v : Str} (h : runEntry n c = .str v) :
    (c.toNat < 256 ∧ v = [c.truncate 8]) ∨ (257 ≤ c.toNat ∧ v = List.replicate (c.toNat - 255) 0x41) := by
  unfold runEntry at h
  split at h
  · rename_i hlt; exact .inl (low_str hlt h)
  · split at h
    · exact .inr ⟨by omega, (Entry.str.inj h).symm⟩
    · cases h

theorem runInv {n : BitVec 10} (h1 : 257 ≤ n.toNat) (h2 : n.toNat ≤ 512) : DictInv (runDict n) n where
  literal c h := by rw [runDict_read, runEntry, if_pos (by omega), initialEntry_literal h]
  reserved := by rw [runDict_read, runEntry, if_pos (by decide), initialEntry_reserved]
  cursor := ⟨h1, h2⟩
  learned c hc hn := by
    have hlt := c.isLt
    have hself : dictRead (runDict n) c = .str (List.replicate (c.toNat - 256) 0x41 ++ [0x41]) := by
      rw [runDict_read, runEntry, if_neg (by omega), if_pos hn]
      rw [← List.replicate_succ', show c.toNat - 255 = c.toNat - 256 + 1 by omega]
    by_cases h257 : c.toNat = 257
    · refine ⟨65, _, _, ?_, by simp; omega, ?_, hself⟩
      · have : (65 : Code).toNat = 65 := rfl
        omega
      · rw [runDict_read, runEntry, if_pos (by decide), initialEntry_literal (by decide), h257]; rfl
    · have hj : (BitVec.ofNat 9 (c.toNat - 1)).toNat = c.toNat - 1 := by simp only [BitVec.toNat_ofNat]; omega
      refine ⟨BitVec.ofNat 9 (c.toNat - 1), _, _, by omega, by simp; omega, ?_, hself⟩
      rw [runDict_read, runEntry, if_neg (by omega), if_pos (by omega), hj,
        show c.toNat - 1 - 255 = c.toNat - 256 by omega]
  unfilled c hc := by rw [runDict_read, runEntry, if_neg (by omega), if_neg (by omega)]
  unique c c' v hc hc' := by
    rw [runDict_read] at hc hc'
    rcases runEntry_str hc with ⟨h1, hv⟩ | ⟨h1, hv⟩ <;> rcases runEntry_str hc' with ⟨h2, hv'⟩ | ⟨h2, hv'⟩ <;>
      have he := hv.symm.trans hv'
    · exact literal_inj h1 h2 (List.cons.inj he).1
    · have := congrArg List.length he
      simp at this; omega
    · have := congrArg List.length he
      simp at this; omega
    · have := congrArg List.length he
      simp only [List.length_replicate] at this
      exact BitVec.eq_of_toNat_eq (by omega)

/-- A state in STREAM at width 9 over a dictionary of pairs, with 0xFF pending: byte 0 then misses. -/
def sPairs (n : BitVec 10) : State :=
  { sStream with
    dict := pairDict n, next := n, cand := [0xFF], pend := some 255, width := 9
    out := headerBytes ++ [0x41], delivered := headerBytes ++ [0x41] }

/-- A state in STREAM over a full dictionary of runs, with the longest candidate, of 256 bytes. -/
def sRuns : State :=
  { sPairs 512 with dict := runDict 512, cand := List.replicate 256 0x41, pend := some 511 }

theorem sPairs_dict (n : BitVec 10) : (sPairs n).dict = pairDict n := by simp only [sPairs]

theorem sRuns_dict : sRuns.dict = runDict 512 := by simp only [sRuns]

/-! The invariant of the witnesses. -/

/-- A state in STREAM at width 9 whose first code is sent, with no bit pending. -/
theorem streamInv {s : State} (hd : DictInv s.dict s.next) (hwf : dictWf s.dict = true) {k : Code}
    (hp : s.pend = some k) (hk : dictRead s.dict k = .str s.cand) (hst : s.st = .stream) (hc : s.cause = .noFault)
    (hout : s.out = headerBytes ++ [0x41]) (hdel : s.delivered = headerBytes ++ [0x41]) (hcnt : s.cnt = 0)
    (hw : s.width = 9) (hcfg : s.cfg = ⟨.eight⟩) : s.Inv where
  canonical := hwf
  faultCause := by simp [hst, hc]
  delivered := by rw [hout, hdel]
  engine _ :=
    { dict := hd
      pending := .inr ⟨k, hp, hk⟩
      cntSmall := by rw [hcnt]; decide
      firstCode := fun h => by rw [hout] at h; simp [headerBytes] at h
      laterCodes := fun _ => ⟨hw, 0, by rw [hout, hcnt, hcfg]; rfl⟩
      header := .inr (by rw [hout]; exact List.prefix_append _ _)
      idle := fun h => by rw [hst] at h; cases h
      started := fun _ => by rw [hout]; exact List.prefix_append _ _
      aligned := fun _ => hcnt }

theorem sIdle_inv : sIdle.Inv :=
  ⟨rfl, by decide, by decide, fun _ => resetEngine_engineInv sIdle⟩

theorem sStream_inv : sStream.Inv :=
  commandFinal_inv (i := .start) sIdle_inv rfl

theorem sA_inv : sA.Inv where
  canonical := rfl
  faultCause := by decide
  delivered := by decide
  engine _ :=
    { dict := dictInv_initial
      pending := .inr ⟨65, rfl, by decide⟩
      cntSmall := by decide
      firstCode := fun _ => ⟨rfl, rfl, rfl, by decide⟩
      laterCodes := fun h => by simp [sA, sStream, headerBytes] at h
      header := .inr (List.prefix_refl _)
      idle := by decide
      started := fun _ => List.prefix_refl _
      aligned := by decide }

theorem sAB_dict : DictInv sAB.dict sAB.next := by
  have h : dictLookup [] [0x41, 0x42] = none := by decide +kernel
  have hd : sAB.dict = dictWrite [] ((257 : BitVec 10).truncate 9) (.str ([0x41] ++ [0x42])) := by decide +kernel
  have hn : sAB.next = 257 + 1 := rfl
  rw [hd, hn]
  exact dictInv_initial.insert (b := 0x42) (k := 65) rfl (by decide) (by decide) h

theorem sAB_inv : sAB.Inv :=
  streamInv (k := 66) sAB_dict (by decide) rfl (by decide) rfl rfl rfl rfl rfl rfl rfl

theorem sPairs_inv {n : BitVec 10} (h1 : 257 ≤ n.toNat) (h2 : n.toNat ≤ 512) : (sPairs n).Inv := by
  have hd := pairInv h1 h2
  exact streamInv (k := 255) (by rw [sPairs_dict]; exact hd) (by rw [sPairs_dict]; exact pairDict_wf n) rfl
    (by rw [sPairs_dict]; exact hd.literal 255 (by decide)) rfl rfl rfl rfl rfl rfl rfl

theorem sPairs_miss {n : BitVec 10} : dictLookup (sPairs n).dict ((sPairs n).cand ++ [0x00]) = none := by
  rw [dictLookup_none]
  intro c hc
  rw [sPairs_dict, pairDict_read] at hc
  rcases pairEntry_str hc with ⟨-, hv⟩ | ⟨h257, hv⟩
  · simp [sPairs] at hv
  · have hv : [(0xFF : Byte), 0x00] = _ := hv
    have := congrArg BitVec.toNat (List.cons.inj hv).1
    rw [show (0xFF : Byte).toNat = 255 from rfl] at this
    simp only [BitVec.toNat_ofNat] at this
    have := c.isLt
    omega

theorem sRuns_inv : sRuns.Inv := by
  have hd := runInv (n := 512) (by decide) (by decide)
  refine streamInv (k := 511) (by rw [sRuns_dict]; exact hd) (by rw [sRuns_dict]; exact runDict_wf 512) rfl ?_ rfl rfl
    rfl rfl rfl rfl rfl
  rw [sRuns_dict, runDict_read, runEntry, if_neg (by decide), if_pos (by decide)]
  rfl

theorem noAnswers {s : State} (h : s.sink = []) (n : Nat) : s.SinkReady n :=
  ready_all (by rw [h]; intro a ha; cases ha) n

/-! Witnesses: for each statement with hypotheses, states and operands that meet them, one per clause and at
the ends of its ranges. -/

/-- A sink that accepts n bytes and refuses the next. -/
def refusing (n : Nat) : List SinkAnswer :=
  List.replicate n .accept ++ [.refuse]

theorem witness_StepRunsTheDecodedCommand :
    ∃ (s : State) (w : CmdWord) (rest : List HostAction) (i : Instr), s.host = .command w :: rest ∧ decode w = .ok i :=
  ⟨{ sA with host := [.command 0x2042, .readStatus] }, 0x2042, [.readStatus], .byte 0x42, rfl, rfl⟩

theorem witness_IllegalWordFaultsPrecisely (st : St) (h : st ≠ .fault) :
    ∃ (s : State) (w : CmdWord) (rest : List HostAction) (e : IllegalWord),
      s.st = st ∧ s.host = .command w :: rest ∧ s.st ≠ .fault ∧ decode w = .error e :=
  ⟨{ sA with st := st, host := [.command 0x2141] }, 0x2141, [], .reservedBitsSet, rfl, rfl, h, rfl⟩

theorem witness_OutOfSequenceFaultsPrecisely :
    sStream.st = .stream ∧ ({ sA with st := .done } : State).st = .done ∧ sIdle.st = .idle := by decide

theorem witness_FaultIsLeftByResetOnly :
    (∃ (s : State) (w : CmdWord) (rest : List HostAction), s.st = .fault ∧ s.host = .command w :: rest) ∧
      (∃ s t : State, s.st = .fault ∧ step s = .next t ∧ t.st = .fault ∧ t.cause = .illegalCmd) ∧
      ∃ s t : State, s.st = .fault ∧ step s = .next t ∧ s.ResetsNext ∧ t.st = .idle := by
  refine ⟨⟨{ sFault with host := [.command 0x1000] }, 0x1000, [], rfl, rfl⟩, ?_, ?_⟩
  · exact ⟨{ sFault with host := [.command 0x4000] }, sFault, rfl, rfl, rfl, rfl⟩
  · exact ⟨{ sFault with host := [.reset] }, resetEngine sFault, rfl, rfl, ⟨[], rfl⟩, rfl⟩

theorem witness_SequencingTable (st : St) :
    ∃ s : State, s.st = st ∧ s.sink ≠ [] ∧ ∀ a ∈ s.sink, a = SinkAnswer.accept :=
  ⟨{ sA with st := st, sink := [.accept, .accept] }, rfl, by simp, by simp⟩

theorem witness_OnlyTheseEventsChangeSt :
    (∃ s t : State, step s = .next t ∧ t.st ≠ s.st ∧ s.ResetsNext) ∧
      (∃ s t : State, step s = .next t ∧ s.st = .idle ∧ t.st = .stream) ∧
      (∃ s t : State, step s = .next t ∧ s.st = .stream ∧ t.st = .done) ∧
      (∃ s t : State, step s = .next t ∧ s.st = .stream ∧ t.st = .fault ∧ t.cause = .sequence) ∧
      ∃ s t : State, step s = .next t ∧ s.st = .idle ∧ t.st = .fault ∧ t.cause = .sinkError :=
  ⟨⟨{ sA with host := [.reset] }, _, rfl, by decide, ⟨[], rfl⟩⟩,
    ⟨{ sIdle with host := [.command 0x1000] }, _, rfl, rfl, rfl⟩,
    ⟨{ sStream with host := [.command 0x3000] }, _, rfl, rfl, rfl⟩,
    ⟨{ sStream with host := [.command 0x1000] }, _, rfl, rfl, rfl, rfl⟩,
    ⟨{ sIdle with host := [.command 0x1000], sink := refusing 1 }, _, rfl, rfl, rfl, rfl⟩⟩

theorem witness_EveryStepCompletes : sA.host = [] := rfl

theorem witness_ResetActionFromAnyState (st : St) :
    ∃ (s : State) (rest : List HostAction), s.st = st ∧ s.host = .reset :: rest :=
  ⟨{ sAB with st := st, host := [.reset, .readStatus] }, [.readStatus], rfl, rfl⟩

theorem witness_StatusWordLayout : ¬(sFault.st = .fault ∧ sFault.cause = .sinkError) := by decide

theorem witness_StatusReadHasNoSideEffect :
    ∃ (s : State) (rest : List HostAction), s.st = .fault ∧ s.host = .readStatus :: rest :=
  ⟨{ sFault with host := [.readStatus] }, [], rfl, rfl⟩

theorem withHost {s : State} (h : s.Inv) (l : List HostAction) : ({ s with host := l } : State).Inv :=
  h.congr rfl rfl rfl rfl rfl rfl rfl rfl rfl rfl rfl

/-- A step of BYTE 0 over the pairs: a miss, its bytes all taken. -/
theorem sPairs_step (n : BitVec 10) :
    step { sPairs n with host := [.command 0x2000] } = .next (byteFinal 0x00 (sPairs n) none) := by
  have hs : ({ sPairs n with host := [] } : State) = sPairs n := by
    simp only [sPairs, sStream, sIdle, State.resetWith]
  rw [step_action (s := { sPairs n with host := [.command 0x2000] }) rfl]
  simp only [hs, runAction, runWord, show decode 0x2000 = .ok (.byte 0x00) from rfl]
  rw [exec_ready rfl (noAnswers rfl _), commandFinal_byte, sPairs_miss]

theorem sPairs_noReset (n : BitVec 10) : ¬ ({ sPairs n with host := [.command 0x2000] } : State).ResetsNext := by
  rintro ⟨rest, h⟩; cases h

/-- The flags' rise, at NEXT = 511, and their staying, at NEXT = 512. -/
theorem witness_FlagsRiseAndStay :
    (∃ s t : State, s.Inv ∧ step s = .next t ∧ ¬ s.ResetsNext ∧ t.cause ≠ .sinkError ∧ s.dictFull = true ∧
      s.pendValid = true) ∧
    ∃ s t : State, s.Inv ∧ step s = .next t ∧ ¬ s.ResetsNext ∧ t.cause ≠ .sinkError ∧ s.dictFull = false ∧
      t.dictFull = true ∧ (∃ b rest, s.host = .command (encode (.byte b)) :: rest) ∧ s.st = .stream := by
  refine ⟨⟨_, _, withHost (sPairs_inv (n := 512) (by decide) (by decide)) _, sPairs_step 512, sPairs_noReset 512,
    by rw [missFinal_cause]; decide, rfl, rfl⟩,
    ⟨_, _, withHost (sPairs_inv (n := 511) (by decide) (by decide)) _, sPairs_step 511, sPairs_noReset 511,
      by rw [missFinal_cause]; decide, rfl, ?_, ⟨0x00, [], rfl⟩, rfl⟩⟩
  rw [State.dictFull, missFinal_next, learn_free _ (by decide)]
  rfl

theorem witness_StartWritesTheHeader :
    (sIdle.st = .idle ∧ sIdle.SinkReady 3) ∧ ({ sIdle with sink := refusing 0 } : State).SinkRefusesAfter 0 ∧
      ({ sIdle with sink := refusing 2 } : State).SinkRefusesAfter 2 := by decide

/-- A hit on a literal and a hit on a learned string. -/
theorem witness_ByteHitExtendsTheMatch :
    (sStream.st = .stream ∧ dictLookup sStream.dict (sStream.cand ++ [0xFF]) = some 255) ∧
      ∃ s : State, s.st = .stream ∧ dictLookup s.dict (s.cand ++ [0x42]) = some 257 := by
  refine ⟨by decide +kernel, { sAB with cand := [0x41], pend := some 65 }, by decide +kernel⟩

/-- A miss with slots left, at the last slot, and in a full dictionary. -/
theorem witness_ByteMissEmitsAndLearns (n : BitVec 10) (h1 : 257 ≤ n.toNat) (h2 : n.toNat ≤ 512) :
    ∃ (s : State) (b : Byte), s.next = n ∧ s.Inv ∧ s.st = .stream ∧ s.SinkReady 2 ∧
      dictLookup s.dict (s.cand ++ [b]) = none :=
  ⟨sPairs n, 0x00, rfl, sPairs_inv h1 h2, rfl, noAnswers rfl _, sPairs_miss⟩

theorem witness_EndEmitsAndPads :
    (sStream.Inv ∧ sStream.st = .stream ∧ sStream.pend = none) ∧
      sA.Inv ∧ sA.st = .stream ∧ sA.pend = some 65 ∧ sA.SinkReady 9 :=
  ⟨⟨sStream_inv, rfl, rfl⟩, sA_inv, rfl, rfl, by decide⟩

/-- V-X-1: the second header byte refused; BYTE on a miss, with its only byte refused and with the second of two;
V-X-2: the first packed byte refused at END. -/
theorem witness_SinkErrorStopsTheCommand :
    (∃ u : State, exec .start { sIdle with sink := [] } = .next u ∧ u.out = sIdle.out ++ [0x1F, 0x9D, 0x89] ∧
      1 < 3 ∧ ({ sIdle with sink := refusing 1 } : State).SinkRefusesAfter 1) ∧
    (∃ u : State, exec (.byte 0x42) { sA with sink := [] } = .next u ∧ u.out = sA.out ++ [0x41] ∧
      sA.st = .stream ∧ 0 < 1 ∧ ({ sA with sink := refusing 0 } : State).SinkRefusesAfter 0) ∧
    (∃ s u : State, exec (.byte 0x41) { s with sink := [] } = .next u ∧
      (∃ a b, u.out = s.out ++ [a, b]) ∧ s.st = .stream ∧ 1 < 2 ∧ s.SinkRefusesAfter 1) ∧
    ∃ u : State, exec .endInput { sA with sink := [] } = .next u ∧ u.out = sA.out ++ [0x41] ∧
      0 < 1 ∧ ({ sA with sink := refusing 0 } : State).SinkRefusesAfter 0 := by
  refine ⟨⟨_, rfl, rfl, by decide, by decide⟩,
    ⟨_, exec_ready rfl (noAnswers rfl _), by decide +kernel, rfl, by decide, by decide⟩,
    ⟨{ sAB with cnt := 7, sink := refusing 1 }, _, exec_ready rfl (noAnswers rfl _), ⟨0x82, 0x42, by decide +kernel⟩,
      rfl, by decide, by decide⟩,
    ⟨_, exec_ready rfl (noAnswers rfl _), ?_, by decide, by decide⟩⟩
  decide +kernel

/-- Each command inside and outside its state; BYTE on a hit and on a miss. -/
theorem witness_CommandFrames :
    (∃ t, exec .start sIdle = .next t ∧ t.cause ≠ .sinkError) ∧
      (∃ t, exec (.byte 0x00) sStream = .next t ∧ t.cause ≠ .sinkError ∧
        dictLookup sStream.dict (sStream.cand ++ [0x00]) ≠ none) ∧
      (∃ t, exec (.byte 0x42) sA = .next t ∧ t.cause ≠ .sinkError ∧ (257 : Code).toNat = sA.next.toNat ∧
        (511 : Code).toNat ≠ sA.next.toNat) ∧
      (∃ t, exec (.byte 0x42) sIdle = .next t ∧ t.cause ≠ .sinkError ∧ sIdle.st ≠ .stream) ∧
      (∃ t, exec .endInput sA = .next t ∧ t.cause ≠ .sinkError) ∧
      ∃ t, exec .endInput sIdle = .next t ∧ t.cause ≠ .sinkError ∧ sIdle.st ≠ .stream := by
  refine ⟨⟨_, exec_ready rfl (noAnswers rfl _), ?_⟩, ⟨_, exec_ready rfl (noAnswers rfl _), ?_, by decide +kernel⟩,
    ⟨_, exec_ready rfl (noAnswers rfl _), ?_, rfl, by decide⟩, ⟨_, exec_outOfSequence (by decide) rfl, by simp, by decide⟩,
    ⟨_, exec_ready rfl (noAnswers rfl _), ?_⟩, ⟨_, exec_outOfSequence (by decide) rfl, by simp, by decide⟩⟩ <;>
    rw [(commandFinal_around _ _).1] <;> decide

/-- START; BYTE on a hit, and on a miss at the first code and at a later one; END with and without a byte. -/
theorem witness_BytesSentPerCommand :
    (sIdle.Inv ∧ sIdle.st = .idle) ∧ (sStream.Inv ∧ sStream.st = .stream ∧ sStream.pend = none) ∧
      (sA.Inv ∧ sA.st = .stream ∧ sA.width = 8 ∧ dictLookup sA.dict (sA.cand ++ [0x42]) = none) ∧
      (sAB.Inv ∧ sAB.st = .stream ∧ sAB.width = 9 ∧ dictLookup sAB.dict (sAB.cand ++ [0x41]) = none) ∧
      ∀ a ∈ sAB.sink, a = SinkAnswer.accept :=
  ⟨⟨sIdle_inv, rfl⟩, ⟨sStream_inv, rfl, rfl⟩, ⟨sA_inv, rfl, rfl, by decide +kernel⟩,
    ⟨sAB_inv, rfl, rfl, by decide +kernel⟩, by intro a h; cases h⟩

theorem witness_LookupIsExactEquality :
    DictInv sAB.dict sAB.next ∧ dictLookup sAB.dict [0x41, 0x42] = some 257 ∧
      dictLookup sAB.dict [0x41, 0x43] = none := ⟨sAB_dict, by decide +kernel, by decide +kernel⟩

/-- The first slot, the last slot, and a full dictionary. -/
theorem witness_InsertAssignsTheNextSlot :
    (sA.next.toNat = 257 ∧ dictWf sA.dict = true) ∧ ((sPairs 511).next.toNat = 511 ∧ dictWf (sPairs 511).dict = true) ∧
      512 ≤ (sPairs 512).next.toNat :=
  ⟨by decide, ⟨rfl, by rw [sPairs_dict]; exact pairDict_wf 511⟩, by decide⟩

theorem witness_FullDictionaryKeepsEncoding :
    (sPairs 512).st = .stream ∧ (sPairs 512).next = 512 ∧ (sPairs 512).pend = some 255 ∧
      dictLookup (sPairs 512).dict ((sPairs 512).cand ++ [0x00]) = none ∧ (sPairs 512).width = 9 ∧
      (sPairs 512).cnt.toNat ≤ 7 ∧ (sPairs 512).SinkReady 2 :=
  ⟨rfl, rfl, rfl, sPairs_miss, rfl, by decide, noAnswers rfl _⟩

theorem witness_StoredStringsNeverChange (n : BitVec 10) (h1 : 257 ≤ n.toNat) (h2 : n.toNat ≤ 512) :
    ∃ s t : State, s.next = n ∧ s.Inv ∧ step s = .next t ∧ ¬ s.ResetsNext ∧ t.cause ≠ .sinkError ∧
      dictRead s.dict 255 = .str [0xFF] := by
  refine ⟨_, _, rfl, withHost (sPairs_inv h1 h2) _, sPairs_step n, sPairs_noReset n,
    by rw [missFinal_cause]; exact (by decide : Cause.noFault ≠ .sinkError), ?_⟩
  rw [sPairs_dict]
  exact (pairInv h1 h2).literal 255 (by decide)

theorem witness_DictionaryIsPrefixClosed :
    DictInv sAB.dict sAB.next ∧ dictRead sAB.dict 257 = .str [0x41, 0x42] ∧ ([0x41] : Str) <+: [0x41, 0x42] :=
  ⟨sAB_dict, rfl, by decide⟩

/-- The bounds are met: 256 bytes at code 511, and a candidate of 256 bytes, in a full dictionary. -/
theorem witness_StringLengthsAreBounded :
    (∃ (d : Dict) (n : BitVec 10) (c : Code) (v : Str), DictInv d n ∧ dictRead d c = .str v ∧ 257 ≤ c.toNat ∧
      v.length + 255 = c.toNat ∧ v.length = 256) ∧ sRuns.EngineInv ∧ sRuns.cand.length = 256 := by
  refine ⟨⟨runDict 512, 512, 511, List.replicate 256 0x41, runInv (by decide) (by decide), ?_, by decide, ?_, ?_⟩,
    sRuns_inv.engine (by decide), List.length_replicate⟩
  rotate_left
  · rw [List.length_replicate]; rfl
  · rw [List.length_replicate]
  rw [runDict_read, runEntry, if_neg (by decide), if_pos (by decide)]
  rfl

theorem witness_PrefixScanAgreesWithExactLookup :
    DictInv sAB.dict sAB.next ∧ ([0x41] : Str) ≠ [] ∧ ([0x41, 0x42] : Str) ≠ [] := ⟨sAB_dict, by decide, by decide⟩

theorem witness_PairStoreIsEquivalent :
    (DictInv sAB.dict sAB.next ∧ 257 ≤ (257 : Code).toNat ∧ (257 : Code).toNat < sAB.next.toNat) ∧
      (sAB.EngineInv ∧ sAB.pend = some 66) ∧ sStream.EngineInv ∧ sStream.pend = none :=
  ⟨⟨sAB_dict, by decide, by decide⟩, ⟨sAB_inv.engine (by decide), rfl⟩, sStream_inv.engine (by decide), rfl⟩

theorem witness_EveryMissHasACodePending :
    (sStream.EngineInv ∧ sStream.pend = none) ∧
      (sA.EngineInv ∧ dictLookup sA.dict (sA.cand ++ [0x42]) = none) ∧
      ∃ s t : State, s.Inv ∧ step s = .next t ∧ ¬ s.ResetsNext ∧ t.cause ≠ .sinkError ∧ s.pend ≠ none :=
  ⟨⟨sStream_inv.engine (by decide), rfl⟩, ⟨sA_inv.engine (by decide), by decide +kernel⟩,
    ⟨_, _, withHost (sPairs_inv (n := 257) (by decide) (by decide)) _, sPairs_step 257, sPairs_noReset 257,
      by rw [missFinal_cause]; decide, by simp [sPairs]⟩⟩

/-- A learned code pending, and the session's first code pending. -/
theorem witness_EmittedCodesAreNeverThePadCode :
    (sRuns.EngineInv ∧ sRuns.pend = some 511) ∧ sA.EngineInv ∧ sA.pend = some 65 ∧ sA.out.length ≤ 3 :=
  ⟨⟨sRuns_inv.engine (by decide), rfl⟩, sA_inv.engine (by decide), rfl, by decide⟩

theorem witness_SinkWriteAcceptsOrRaises :
    sA.SinkReady 1 ∧ ({ sA with sink := [.accept] } : State).SinkReady 1 ∧
      ({ sA with sink := refusing 0 } : State).SinkRefusesAfter 0 := by decide

/-- Both widths, 16 bits in the accumulator, and each byte refused. -/
theorem witness_PutCodeShiftsAndSends :
    (sA.cnt.toNat = 0 ∧ sA.width = 8 ∧ sA.SinkReady 1 ∧ ({ sA with sink := refusing 0 } : State).SinkRefusesAfter 0) ∧
      ∃ s : State, s.cnt.toNat = 7 ∧ s.width = 9 ∧ s.cnt.toNat + s.width.toNat = 16 ∧ s.SinkReady 2 ∧
        ({ s with sink := refusing 1 } : State).SinkRefusesAfter 1 :=
  ⟨by decide, { sAB with cnt := 7 }, by decide⟩

/-- Every pending count, from 0 to 7. -/
theorem witness_FlushTable (c : BitVec 5) (h : c.toNat ≤ 7) :
    ∃ s : State, s.cnt = c ∧ s.width = 9 ∧ s.cnt.toNat ≤ 7 ∧ s.SinkReady 8 :=
  ⟨{ sAB with cnt := c }, rfl, rfl, h, noAnswers rfl _⟩

theorem witness_FlushEndsAtABoundary :
    (sA.cnt = 0 ∧ sA.width = 8 ∧ ∀ a ∈ sA.sink, a = SinkAnswer.accept) ∧
      ∃ s : State, s.cnt.toNat = 7 ∧ s.width = 9 ∧ s.cnt.toNat % s.width.toNat ≠ 0 ∧ ∀ a ∈ s.sink, a = SinkAnswer.accept :=
  ⟨⟨rfl, rfl, by intro a h; cases h⟩, { sAB with cnt := 7 }, by decide⟩

theorem witness_PackerIsABitQueue :
    (∃ s : State, s.cnt.toNat = 7 ∧ s.width = 9 ∧ s.SinkReady 8) ∧
      sA.cnt.toNat ≤ 7 ∧ sA.width = 8 ∧ 255 % 512 < 256 ∧ ∀ n, sA.SinkReady n :=
  ⟨⟨{ sAB with cnt := 7 }, by decide⟩, by decide, rfl, by decide, noAnswers rfl⟩

theorem witness_StaleAccumulatorBitsAreInvisible :
    (sAB.cnt.toNat ≤ 7 ∧ sAB.width = 9 ∧ (0xFFFFFFFF : BitVec 32).toNat % 2 ^ sAB.cnt.toNat =
      sAB.acc.toNat % 2 ^ sAB.cnt.toNat) ∧
    ∃ s : State, s.cnt.toNat = 7 ∧ s.width = 8 ∧ (0x80 : BitVec 32).toNat % 2 ^ s.cnt.toNat = s.acc.toNat % 2 ^ s.cnt.toNat :=
  ⟨by decide, { sA with cnt := 7 }, by decide⟩

theorem witness_DeliveredBytesAreFinal :
    (∃ t, step { sIdle with host := [.command 0x1000] } = .next t ∧ t.out ≠ []) ∧
      ∃ t, step { sA with host := [.reset] } = .next t ∧ t.out = [] :=
  ⟨⟨_, rfl, by decide⟩, ⟨_, rfl, rfl⟩⟩

theorem witness_StepKeepsTheInvariant :
    ∃ s t : State, s.Inv ∧ step s = .next t ∧ t ≠ s :=
  ⟨{ sIdle with host := [.command 0x1000] }, _, withHost sIdle_inv _, rfl, by decide⟩

/-- Two engines in different states, the same reset and START after it. -/
theorem witness_SessionsShareNothing :
    ∃ (s s' t t' : State) (n : Nat), s ≠ s' ∧ s.ResetsNext ∧ s.host = s'.host ∧ s.sink = s'.sink ∧ s.cfg = s'.cfg ∧
      core.run (n + 1) s = .next t ∧ core.run (n + 1) s' = .next t' ∧ t.cause ≠ .sinkError :=
  ⟨{ sAB with host := [.reset, .command 0x1000] }, { sFault with host := [.reset, .command 0x1000] }, _, _, 1,
    by decide, ⟨[.command 0x1000], rfl⟩, rfl, rfl, rfl, rfl, rfl, by decide⟩

/-- P1 and the empty session, from a state in FAULT. -/
theorem witness_SessionOutputIsTheCodeStream (input : Str) (rest : List HostAction) :
    ∃ s : State, s.host = .reset :: sessionActions input ++ rest ∧ ∀ a ∈ s.sink, a = SinkAnswer.accept :=
  ⟨{ sFault with host := .reset :: sessionActions input ++ rest }, rfl, by intro a h; cases h⟩

/-- The spellings of R81 itself and of P5, a text with a comment's mark in it, a list, and a line to comment on. -/
theorem witness_AssemblySyntax :
    (['\'', 'A', '\''] ∈ immTexts 0x41 ∧ ['6', '5'] ∈ immTexts 0x41 ∧ ['0', 'x', '4', '1'] ∈ immTexts 0x41 ∧
      ['0', 'x', 'F', 'F'] ∈ immTexts 0xFF ∧ ['2', '5', '5'] ∈ immTexts 0xFF ∧ ['0'] ∈ immTexts 0x00) ∧
    (∀ c ∈ ['A', ';', ' ', 'z'], c.toNat < 128 ∧ c ≠ '"') ∧
    (∀ p ∈ [((0x00 : Byte), ['0', 'x', '0', '0']), (0xFF, ['0', 'x', 'F', 'F'])], p.2 ∈ hexTexts p.1) ∧
    assembleLine "BYTE 'A'".toList = some [.command 0x2041] :=
  ⟨by decide +kernel, by simp, by decide +kernel, by decide +kernel⟩

end Sys2Proof.Tests
end

section
/-! PROOFS. The state family (10_state.md): the invariant every step keeps, what a step can do to the
dictionary and the flags, the STATUS word, and the independence of one session from the one before. -/

namespace Sys2Proof.Machine

/-! The invariant. -/

/-- Every host action keeps the invariant: one case for each thing an action can do. -/
theorem runAction_inv {a : HostAction} {s t : State} (hI : s.Inv) (he : runAction a s = .next t) : t.Inv := by
  rcases runAction_cases a s with
    ⟨h, -⟩ | ⟨h, -⟩ | ⟨h, -⟩ | ⟨w, c, -, hst, hc, h⟩ | ⟨w, i, -, -, ha, -, h⟩ | ⟨w, i, n, -, -, -, -, -, h⟩ <;>
    obtain rfl := Host.Outcome.next.inj (h.symm.trans he)
  · exact hI
  · exact ⟨rfl, by simp, by simp, fun _ => resetEngine_engineInv s⟩
  · exact hI.congr rfl rfl rfl rfl rfl rfl rfl rfl rfl rfl rfl
  · have hno := hI.faultCause.2 hst
    refine ⟨hI.canonical, ?_, hI.delivered, fun _ => engineInv_precise (hI.engine (by simp [hno])) c⟩
    rcases hc with rfl | rfl <;> simp
  · exact commandFinal_inv hI ha
  · exact refuseByte_inv _ hI.delivered

/-- Taking an action off the host's list touches nothing the invariant speaks of. -/
theorem State.Inv.withHost {s : State} (hI : s.Inv) (l : List HostAction) : ({ s with host := l } : State).Inv :=
  hI.congr rfl rfl rfl rfl rfl rfl rfl rfl rfl rfl rfl

theorem step_inv {s t : State} (hI : s.Inv) (he : step s = .next t) : t.Inv := by
  rcases hh : s.host with _ | ⟨a, rest⟩
  · rw [step_idle hh] at he
    exact Host.Outcome.next.inj he ▸ hI
  · rw [step_action hh] at he
    exact runAction_inv (hI.withHost rest) he

/-- Settles O44, by the cases of `runAction_cases`. -/
theorem stepKeepsTheInvariant : Obligations.StepKeepsTheInvariant :=
  fun _ _ => step_inv

theorem resetWith_inv (c : Config) : (State.resetWith c).Inv :=
  ⟨rfl, by simp [State.resetWith], List.suffix_refl _, fun _ => resetEngine_engineInv (State.resetWith c)⟩

/-- Settles O43. -/
theorem invariantHoldsAtReset : Obligations.InvariantHoldsAtReset :=
  ⟨resetWith_inv, resetWith_inv Config.default⟩

/-! Two engines in step. -/

/-- The state with other values in the model's own records, which no command reads. -/
def State.withRecords (s : State) (delivered : Str) (reads : List StatusWord) (draws : Nat) : State :=
  { s with delivered := delivered, reads := reads, draws := draws }

section
variable (s : State) (del : Str) (rd : List StatusWord) (n : Nat)

@[simp] theorem withRecords_dict : (s.withRecords del rd n).dict = s.dict := rfl
@[simp] theorem withRecords_cand : (s.withRecords del rd n).cand = s.cand := rfl

theorem learn_withRecords (v : Str) :
    learn v (s.withRecords del rd n) = (learn v s).withRecords del rd n := by
  by_cases h : s.next.toNat < 512
  · rw [learn_free v h, learn_free v (s := s.withRecords del rd n) h]; rfl
  · rw [learn_full v (Nat.not_lt.1 h), learn_full v (s := s.withRecords del rd n) (Nat.not_lt.1 h)]

/-- The bytes BYTE offers the sink do not depend on the model's records. -/
theorem byteBytes_withRecords (r : Option Code) : byteBytes (s.withRecords del rd n) r = byteBytes s r := by
  cases r <;> rfl

/-- Nor does what BYTE leaves, but for the record of the bytes delivered. -/
theorem byteFinal_withRecords (b : Byte) (r : Option Code) :
    byteFinal b (s.withRecords del rd n) r = (byteFinal b s r).withRecords (del ++ byteBytes s r) rd n := by
  cases r with
  | some k => simp only [byteBytes, List.append_nil]; rfl
  | none =>
    simp only [byteFinal, withRecords_cand, learn_withRecords, withRecords_dict]
    simp only [State.withRecords]
    rfl

/-- The bytes a command offers the sink do not depend on the model's records. -/
theorem commandBytes_withRecords (i : Instr) : commandBytes i (s.withRecords del rd n) = commandBytes i s := by
  cases i with
  | start => rfl
  | byte b => simp only [commandBytes, withRecords_dict, withRecords_cand, byteBytes_withRecords]
  | endInput => rfl

/-- Nor does what the command leaves, but for the record of the bytes delivered. -/
theorem commandFinal_withRecords (i : Instr) :
    commandFinal i (s.withRecords del rd n) = (commandFinal i s).withRecords (del ++ commandBytes i s) rd n := by
  cases i with
  | start => rfl
  | byte b =>
    simp only [commandFinal_byte, commandBytes, withRecords_dict, withRecords_cand, byteFinal_withRecords]
  | endInput => rfl

end

/-- Two engines in the same session: the host and the sink cannot tell them apart, and unless a SINK_ERROR left
the registers unspecified these agree too. Their records of the past may differ. -/
structure SameSession (s s' : State) : Prop where
  st : s'.st = s.st
  cause : s'.cause = s.cause
  out : s'.out = s.out
  cfg : s'.cfg = s.cfg
  host : s'.host = s.host
  sink : s'.sink = s.sink
  /-- A SINK_ERROR leaves the engine in FAULT (R183), so no command runs over unspecified registers. -/
  stopped : s.cause = .sinkError → s.st = .fault
  registers : s.cause ≠ .sinkError → s'.registers = s.registers

/-- Short of a SINK_ERROR only the records differ. -/
theorem SameSession.eq_withRecords {s s' : State} (h : SameSession s s') (hc : s.cause ≠ .sinkError) :
    s' = s.withRecords s'.delivered s'.reads s'.draws := by
  obtain ⟨hst, hcause, hout, hcfg, hhost, hsink, -, hregs⟩ := h
  obtain ⟨hd, hn, hcand, hp, ha, hcnt, hw⟩ := registers_eq.1 (hregs hc)
  cases s
  cases s'
  simp only at hst hcause hout hcfg hhost hsink hd hn hcand hp ha hcnt hw
  subst hst hcause hout hcfg hhost hsink hd hn hcand hp ha hcnt hw
  rfl

theorem sameSession_withRecords {s : State} (hs : s.cause = .sinkError → s.st = .fault) (del : Str)
    (rd : List StatusWord) (n : Nat) : SameSession s (s.withRecords del rd n) :=
  ⟨rfl, rfl, rfl, rfl, rfl, rfl, hs, fun _ => rfl⟩

/-- A reset ends every difference between two engines of the same parameter and the same outside world. -/
theorem sameSession_reset {s s' : State} (hcfg : s'.cfg = s.cfg) (hhost : s'.host = s.host)
    (hsink : s'.sink = s.sink) : SameSession (resetEngine s) (resetEngine s') where
  st := rfl
  cause := rfl
  out := rfl
  cfg := hcfg
  host := hhost
  sink := hsink
  stopped h := by simp at h
  registers _ := by simp [State.registers, hcfg]

section
variable {s s' : State} (h : SameSession s s')
include h

theorem SameSession.withHost (l : List HostAction) :
    SameSession { s with host := l } { s' with host := l } :=
  ⟨h.st, h.cause, h.out, h.cfg, rfl, h.sink, h.stopped, h.registers⟩

theorem SameSession.readStatus : SameSession (readStatus s) (readStatus s') :=
  ⟨h.st, h.cause, h.out, h.cfg, h.host, h.sink, h.stopped, h.registers⟩

/-- A precise fault is the same in both (R185, R186). -/
theorem SameSession.precise (c : Cause) (hf : s.st ≠ .fault) :
    SameSession { s with st := .fault, cause := c } { s' with st := .fault, cause := c } :=
  ⟨rfl, rfl, h.out, h.cfg, h.host, h.sink, fun _ => rfl, fun _ => h.registers fun hc => hf (h.stopped hc)⟩

/-- A refused byte leaves nothing but ST, CAUSE and OUT to agree on (R184). -/
theorem SameSession.refuse (bs : Str) :
    SameSession (refuseByte (acceptBytes bs s)) (refuseByte (acceptBytes bs s')) := by
  constructor <;> simp [refuseByte, acceptBytes, h.out, h.cfg, h.host, h.sink]

/-- The same accepted command runs alike in both: the same bytes offered, the same answers, the same effect. -/
theorem SameSession.exec_accepted {i : Instr} (ha : accepted s.st i = true) :
    ∃ t t', exec i s = .next t ∧ exec i s' = .next t' ∧ SameSession t t' := by
  have hc : s.cause ≠ .sinkError := fun hc => accepted_not_fault ha (h.stopped hc)
  have hrec := h.eq_withRecords hc
  have hbytes : commandBytes i s' = commandBytes i s := by rw [hrec, commandBytes_withRecords]
  refine ⟨_, _, Machine.exec_accepted ha, Machine.exec_accepted (h.st ▸ ha), ?_⟩
  rw [hbytes, h.sink]
  cases refusalWithin (commandBytes i s).length s.sink with
  | some n => exact h.refuse _
  | none =>
    rw [hrec]
    simp only [commandFinal_withRecords]
    exact sameSession_withRecords (fun he => absurd ((commandFinal_around i s).1 ▸ he) hc) _ _ _

/-- The same command word does the same in both. -/
theorem SameSession.runWord (w : CmdWord) :
    ∃ t t', runWord w s = .next t ∧ runWord w s' = .next t' ∧ SameSession t t' := by
  unfold Machine.runWord
  by_cases hf : s.st = .fault
  · have hf' : s'.st = .fault := h.st.trans hf
    refine ⟨s, s', ?_, ?_, h⟩ <;> cases decode w <;> simp [exec_inFault, runIllegal, hf, hf']
  · have hf' : s'.st ≠ .fault := by rwa [h.st]
    cases decode w with
    | error e => exact ⟨_, _, runIllegal_eq s hf, runIllegal_eq s' hf', h.precise _ hf⟩
    | ok i =>
      cases ha : accepted s.st i with
      | true => exact h.exec_accepted ha
      | false =>
        exact ⟨_, _, exec_outOfSequence hf ha, exec_outOfSequence hf' (h.st ▸ ha), h.precise _ hf⟩

/-- One step keeps two engines in the same session. -/
theorem SameSession.step : ∃ t t', step s = .next t ∧ step s' = .next t' ∧ SameSession t t' := by
  rcases hh : s.host with _ | ⟨a, rest⟩
  · exact ⟨s, s', step_idle hh, step_idle (h.host.trans hh), h⟩
  · rw [step_action hh, step_action (h.host.trans hh)]
    cases a with
    | command w => exact (h.withHost rest).runWord w
    | reset => exact ⟨_, _, rfl, rfl, sameSession_reset h.cfg rfl h.sink⟩
    | readStatus => exact ⟨_, _, rfl, rfl, (h.withHost rest).readStatus⟩

/-- Any number of steps do. -/
theorem SameSession.run {n : Nat} {t t' : State} (he : core.run n s = .next t) (he' : core.run n s' = .next t') :
    SameSession t t' := by
  induction n generalizing s s' with
  | zero =>
    obtain rfl := Host.Outcome.next.inj he
    obtain rfl := Host.Outcome.next.inj he'
    exact h
  | succ n ih =>
    obtain ⟨u, u', hu, hu', hsame⟩ := h.step
    rw [core_run_succ hu] at he
    rw [core_run_succ hu'] at he'
    exact ih hsame he he'

/-- Where the registers agree so does STATUS. -/
theorem SameSession.status_eq (hc : s.cause ≠ .sinkError) : s'.status = s.status := by
  rw [h.eq_withRecords hc]
  simp only [State.status, State.withRecords, hc, and_false, if_false]
  rfl

end

/-- Settles O45: the reset brings the two engines into the same session, and every step keeps them there. -/
theorem sessionsShareNothing : Obligations.SessionsShareNothing := by
  unfold Obligations.SessionsShareNothing
  intro s s' t t' n ⟨rest, hreset⟩ hhost hsink hcfg he he'
  rw [core_run_succ (step_action hreset)] at he
  rw [core_run_succ (step_action (hhost ▸ hreset))] at he'
  have hsame : SameSession (resetEngine { s with host := rest }) (resetEngine { s' with host := rest }) :=
    sameSession_reset hcfg.symm rfl hsink.symm
  have h := hsame.run he he'
  exact ⟨h.st.symm, h.cause.symm, h.out.symm, fun hc => ⟨(h.registers hc).symm, (h.status_eq hc).symm⟩⟩

/-! The STATUS word. -/

theorem St.code_toNat (st : St) :
    st.code.toNat = match st with | .idle => 0 | .stream => 1 | .done => 2 | .fault => 3 := by
  cases st <;> rfl

theorem Cause.code_toNat (c : Cause) :
    c.code.toNat = match c with | .noFault => 0 | .illegalCmd => 1 | .sequence => 2 | .sinkError => 3 := by
  cases c <;> rfl

theorem State.dictFull_iff (s : State) : s.dictFull = true ↔ s.next.toNat = 512 := by
  rw [State.dictFull, beq_iff_eq, ← BitVec.toNat_inj]; rfl

theorem State.w9_iff (s : State) : s.w9 = true ↔ s.width.toNat = 9 := by
  rw [State.w9, beq_iff_eq, ← BitVec.toNat_inj]; rfl

theorem State.pendValid_iff (s : State) : s.pendValid = true ↔ s.pend ≠ none := by
  rw [State.pendValid, Option.isSome_iff_ne_none]

theorem State.pendValid_toNat (s : State) : s.pendValid.toNat = match s.pend with | none => 0 | some _ => 1 := by
  rw [State.pendValid]; cases s.pend <;> rfl

theorem toNat_eq_ite_of_iff {b : Bool} {p : Prop} [Decidable p] (h : b = true ↔ p) :
    b.toNat = if p then 1 else 0 := by
  cases b <;> simp_all

/-- STATUS as the sum of its fields, the lowest first (R32). -/
theorem State.status_toNat {s : State} (h : ¬(s.st = .fault ∧ s.cause = .sinkError)) :
    s.status.toNat = s.st.code.toNat + 2 ^ 2 * s.dictFull.toNat + 2 ^ 3 * s.pendValid.toNat +
      2 ^ 4 * s.cause.code.toNat + 2 ^ 8 * s.cnt.toNat + 2 ^ 13 * s.w9.toNat + 2 ^ 16 * s.next.toNat := by
  rw [State.status, if_neg h, statusWord_toNat]
  omega

/-- Settles O15: the sum of `State.status_toNat`, each field by its own lemma. -/
theorem statusWordLayout : Obligations.StatusWordLayout := by
  unfold Obligations.StatusWordLayout
  intro s h
  have hsum := State.status_toNat h
  rw [St.code_toNat, Cause.code_toNat, s.pendValid_toNat, toNat_eq_ite_of_iff s.dictFull_iff,
    toNat_eq_ite_of_iff s.w9_iff] at hsum
  exact hsum

/-- Settles O16. -/
theorem statusReadHasNoSideEffect : Obligations.StatusReadHasNoSideEffect := by
  unfold Obligations.StatusReadHasNoSideEffect
  intro s rest h
  rw [step_action h]
  rfl

theorem initialEntry_eq (k : Code) : initialEntry k =
    if k.toNat < 256 then .str [BitVec.ofNat 8 k.toNat] else if k.toNat = 256 then .reserved else .empty := by
  have h : k = 256 ↔ k.toNat = 256 := by rw [← BitVec.toNat_inj]; rfl
  simp only [initialEntry, h]
  rfl

/-- Settles O13. -/
theorem resetValues : Obligations.ResetValues := by
  unfold Obligations.ResetValues
  rintro ⟨w⟩
  refine ⟨rfl, rfl, initialEntry_eq, rfl, rfl, rfl, rfl, rfl, ?_, rfl, ?_⟩ <;> cases w <;> rfl

/-! What a step that is no reset and no SINK_ERROR does to the dictionary and to PEND. -/

/-- After BYTE a code is pending: the one found, or on a miss the byte's own (R120). -/
theorem byteFinal_pend {s : State} (hI : s.Inv) (h : s.EngineInv) (b : Byte) :
    (commandFinal (.byte b) s).pend ≠ none := by
  rw [commandFinal_byte]
  cases hl : dictLookup s.dict (s.cand ++ [b]) with
  | some k => simp
  | none => rw [missFinal_pend, (learn_inv hI h hl).1.lookup_literal b]; simp

/-- No command takes PEND back to none (R123). -/
theorem commandFinal_pend {s : State} (hI : s.Inv) (h : s.EngineInv) (i : Instr) (hp : s.pend ≠ none) :
    (commandFinal i s).pend ≠ none := by
  cases i with
  | start => exact hp
  | byte b => exact byteFinal_pend hI h b
  | endInput => exact hp

section
variable {s t : State} (hI : s.Inv) (he : step s = .next t) (hnr : ¬ s.ResetsNext) (hc : t.cause ≠ .sinkError)
include hI he hnr hc

/-- Only a reset leaves a SINK_ERROR behind, so before such a step the engine's invariant holds. -/
theorem engineInv_of_step : s.EngineInv := by
  refine hI.engine ?_
  rcases step_cases he hnr hc with ⟨-, -, hcause | hf⟩ | ⟨w, i, rest, -, -, ha, -⟩
  · exact hcause ▸ hc
  · rw [hI.faultCause.2 hf]; decide
  · rw [hI.faultCause.2 (accepted_not_fault ha)]; decide

/-- Such a step leaves D and NEXT alone, or stores a string at NEXT and advances NEXT. -/
theorem step_dict : (t.dict = s.dict ∧ t.next = s.next) ∨
    ∃ v, s.next.toNat < 512 ∧ t.next.toNat = s.next.toNat + 1 ∧
      dictRead t.dict (s.next.truncate 9) = .str v ∧
      ∀ c : Code, c.toNat ≠ s.next.toNat → dictRead t.dict c = dictRead s.dict c := by
  rcases step_cases he hnr hc with ⟨hregs, -⟩ | ⟨w, i, rest, -, -, -, rfl⟩
  · obtain ⟨hd, hn, -⟩ := registers_eq.1 hregs
    exact .inl ⟨hd, hn⟩
  · rcases commandFinal_dict i { s with host := rest } with hsame | ⟨b, -, -, hfree, hd, hn⟩
    · exact .inl hsame
    · refine .inr ⟨s.cand ++ [b], hfree, ?_, ?_, fun c hne => ?_⟩
      · rw [hn, BitVec.toNat_add, show (1 : BitVec 10).toNat = 1 from rfl]
        exact Nat.mod_eq_of_lt (Nat.lt_of_lt_of_le (Nat.succ_lt_succ hfree) (by decide))
      · rw [hd]; exact dictRead_write_same hI.canonical _ _
      · rw [hd]
        refine dictRead_write_other _ _ fun heq => hne ?_
        rw [heq, BitVec.truncate_eq_setWidth, BitVec.toNat_setWidth, Nat.mod_eq_of_lt hfree]

theorem step_pend (hp : s.pend ≠ none) : t.pend ≠ none := by
  have h := engineInv_of_step hI he hnr hc
  rcases step_cases he hnr hc with ⟨hregs, -⟩ | ⟨w, i, rest, -, -, ha, rfl⟩
  · obtain ⟨-, -, -, hpend, -⟩ := registers_eq.1 hregs
    rwa [hpend]
  · exact commandFinal_pend (hI.withHost rest) (engineInv_of_accepted (hI.withHost rest) ha) i hp

end

/-- Settles O28: the one entry a step may write is the one at NEXT, which held no string. -/
theorem storedStringsNeverChange : Obligations.StoredStringsNeverChange := by
  unfold Obligations.StoredStringsNeverChange
  intro s t hI he hnr hc
  have h := (engineInv_of_step hI he hnr hc).dict
  have hcur := h.cursor.2
  rcases step_dict hI he hnr hc with ⟨hd, hn⟩ | ⟨v, hfree, hn, -, hother⟩
  · rw [hd, hn]
    exact ⟨Nat.le_refl _, hcur, fun c v hv => hv⟩
  · refine ⟨by omega, by omega, fun c u hu => ?_⟩
    rwa [hother c (Nat.ne_of_lt (h.stored hu).1)]

theorem decode_encode_ok (i : Instr) : decode (encode i) = .ok i := by
  rw [decode, encode, ofWord_toWord]
  cases i <;> rfl

/-- An accepted command that no SINK_ERROR stopped has had its whole effect. -/
theorem commandFinal_of_exec {i : Instr} {s t : State} (ha : accepted s.st i = true) (he : exec i s = .next t)
    (hc : t.cause ≠ .sinkError) : t = commandFinal i s := by
  rw [exec_accepted ha] at he
  obtain rfl := Host.Outcome.next.inj he
  cases hr : refusalWithin (commandBytes i s).length s.sink with
  | none => rfl
  | some n => exact absurd (by simp [hr, refuseByte]) hc

/-- A BYTE in STREAM leaves a code pending. -/
theorem step_byte_pend {s t : State} {b : Byte} {rest : List HostAction} (hI : s.Inv) (he : step s = .next t)
    (hc : t.cause ≠ .sinkError) (hh : s.host = .command (encode (.byte b)) :: rest) (hst : s.st = .stream) :
    t.pend ≠ none := by
  have ha : accepted ({ s with host := rest } : State).st (.byte b) = true := by rw [hst]; rfl
  have hexec : exec (.byte b) { s with host := rest } = .next t := by
    rw [← he, step_action hh, runAction, runWord, decode_encode_ok]
  rw [commandFinal_of_exec ha hexec hc]
  exact byteFinal_pend (hI.withHost rest) (engineInv_of_accepted (hI.withHost rest) ha) b

/-- Settles O17: DICT_FULL by `step_dict`, PEND_VALID by `step_pend` and `step_byte_pend`. -/
theorem flagsRiseAndStay : Obligations.FlagsRiseAndStay := by
  unfold Obligations.FlagsRiseAndStay
  intro s t hI he hnr hc
  simp only [State.pendValid_iff]
  refine ⟨fun hfull => ?_, fun hnot hfull => ?_, step_pend hI he hnr hc,
    fun b rest hh hst => step_byte_pend hI he hc hh hst⟩
  · rcases step_dict hI he hnr hc with ⟨hd, hn⟩ | ⟨v, hfree, -⟩
    · exact ⟨by rw [State.dictFull, hn]; exact hfull, hd⟩
    · exact absurd (s.dictFull_iff.1 hfull) (Nat.ne_of_lt hfree)
  · rcases step_dict hI he hnr hc with ⟨-, hn⟩ | ⟨v, hfree, hn, hread, -⟩
    · rw [State.dictFull, hn] at hfull
      exact absurd (hfull.symm.trans hnot) (by decide)
    · have ht := t.dictFull_iff.1 hfull
      have hs : s.next = 511 := BitVec.eq_of_toNat_eq (by rw [show (511 : BitVec 10).toNat = 511 from rfl]; omega)
      refine ⟨hs, BitVec.eq_of_toNat_eq ht, ?_⟩
      rw [hs] at hread
      rw [show (511 : Code) = (511 : BitVec 10).truncate 9 from rfl, hread]
      exact Entry.noConfusion

/-- Settles O33: with PEND = none the candidate is empty, so every byte is a literal that hits. -/
theorem everyMissHasACodePending : Obligations.EveryMissHasACodePending := by
  unfold Obligations.EveryMissHasACodePending
  refine ⟨fun s h hp => ?_, fun s b h hl => ?_, fun s t => step_pend⟩
  · rcases h.pending with ⟨-, hcand, -⟩ | ⟨k, hk, -⟩
    · exact ⟨hcand, fun b => by rw [hcand]; exact h.dict.lookup_literal b⟩
    · exact absurd (hp ▸ hk) nofun
  · obtain ⟨k, hk, -⟩ := pending_of_miss h hl
    exact ⟨k, hk⟩

end Sys2Proof.Machine
end

section
/-! PROOFS. The memory family (20_memory.md): the sink's two answers to a byte, what each command leaves
unchanged, and the packer as a bit queue. -/

namespace Sys2Proof.Machine

/-! The sink. -/

theorem sinkWrites_singleton (b : Byte) (s : State) : sinkWrites [b] s = sinkWrite b s := by
  rw [sinkWrites]
  cases sinkWrite b s <;> rfl

theorem sinkWrite_ready {s : State} (b : Byte) (h : s.SinkReady 1) : sinkWrite b s = .cont (acceptBytes [b] s) := by
  rw [← sinkWrites_singleton]
  exact sinkWrites_ready h

theorem sinkWrite_refused {s : State} (b : Byte) (h : s.SinkRefusesAfter 0) :
    sinkWrite b s = .raised (refuseByte s) := by
  rw [sinkWrite, List.head?_eq_getElem?, h.2]

@[simp] theorem refuseByte_st (s : State) : (refuseByte s).st = .fault := raiseFault_st _ _
@[simp] theorem refuseByte_cause (s : State) : (refuseByte s).cause = .sinkError := raiseFault_cause _ _
@[simp] theorem refuseByte_out (s : State) : (refuseByte s).out = s.out := raiseFault_out _ _
@[simp] theorem refuseByte_delivered (s : State) : (refuseByte s).delivered = s.delivered := raiseFault_delivered _ _

theorem refuseByte_surroundings (s : State) : (refuseByte s).surroundings = s.surroundings := by
  simp [State.surroundings, refuseByte]

/-- Settles O35. -/
theorem sinkWriteAcceptsOrRaises : Obligations.SinkWriteAcceptsOrRaises := by
  unfold Obligations.SinkWriteAcceptsOrRaises
  exact ⟨fun _ b h => sinkWrite_ready b h,
    fun s b h => ⟨_, sinkWrite_refused b h, refuseByte_st s, refuseByte_cause s, refuseByte_out s,
      refuseByte_delivered s⟩⟩

/-! The frames of the commands. -/

/-- No command touches the surroundings, whatever the sink answers. -/
theorem exec_surroundings {i : Instr} {s t : State} (he : exec i s = .next t) : t.surroundings = s.surroundings := by
  rcases exec_cases i s with ⟨h, -⟩ | ⟨h, -⟩ | ⟨h, -⟩ | ⟨n, h, -⟩ <;>
    obtain rfl := Host.Outcome.next.inj (h.symm.trans he)
  · rfl
  · rfl
  · exact (commandFinal_around i s).2.1
  · exact refuseByte_surroundings _

/-- Short of a SINK_ERROR an accepted command has its whole effect, and any other leaves the registers, OUT and
the draw counter alone and moves ST at most to FAULT. -/
theorem exec_frame_cases {i : Instr} {s t : State} (he : exec i s = .next t) (hc : t.cause ≠ .sinkError) :
    (accepted s.st i = true ∧ t = commandFinal i s) ∨
    (accepted s.st i = false ∧ (t.st = s.st ∨ t.st = .fault) ∧ t.registers = s.registers ∧ t.out = s.out ∧
      t.draws = s.draws) := by
  cases ha : accepted s.st i with
  | true => exact .inl ⟨rfl, commandFinal_of_exec ha he hc⟩
  | false =>
    refine .inr ⟨rfl, ?_⟩
    by_cases hf : s.st = .fault
    · obtain rfl := Host.Outcome.next.inj ((exec_inFault i hf).symm.trans he)
      exact ⟨.inl rfl, rfl, rfl, rfl⟩
    · obtain rfl := Host.Outcome.next.inj ((exec_outOfSequence hf ha).symm.trans he)
      exact ⟨.inr rfl, rfl, rfl, rfl⟩

/-- A command writes no entry of D but the one at NEXT. -/
theorem dictRead_commandFinal_other (i : Instr) {s : State} {c : Code} (hne : c.toNat ≠ s.next.toNat) :
    dictRead (commandFinal i s).dict c = dictRead s.dict c := by
  rcases commandFinal_dict i s with ⟨hd, -⟩ | ⟨b, -, -, hfree, hd, -⟩
  · rw [hd]
  · rw [hd]
    refine dictRead_write_other _ _ fun heq => hne ?_
    rw [heq, BitVec.truncate_eq_setWidth, BitVec.toNat_setWidth, Nat.mod_eq_of_lt hfree]

theorem commandFinal_byte_st (b : Byte) (s : State) : (commandFinal (.byte b) s).st = s.st := by
  rw [commandFinal_byte]
  cases dictLookup s.dict (s.cand ++ [b]) <;> rfl

theorem accepted_byte_iff {st : St} {b : Byte} : accepted st (.byte b) = true ↔ st = .stream := by
  cases st <;> simp [accepted]

theorem accepted_endInput_iff {st : St} : accepted st .endInput = true ↔ st = .stream := by
  cases st <;> simp [accepted]

section
variable {s t : State} (hc : t.cause ≠ .sinkError)
include hc

theorem execStart_frame (he : exec .start s = .next t) : t.registers = s.registers ∧ t.draws = s.draws := by
  rcases exec_frame_cases he hc with ⟨-, rfl⟩ | ⟨-, -, hregs, -, hdraws⟩
  · exact ⟨rfl, rfl⟩
  · exact ⟨hregs, hdraws⟩

theorem execEndInput_frame (he : exec .endInput s = .next t) :
    t.dict = s.dict ∧ t.next = s.next ∧ t.cand = s.cand ∧ t.pend = s.pend ∧ t.draws = s.draws ∧
      (s.st ≠ .stream → t.registers = s.registers ∧ t.out = s.out) := by
  rcases exec_frame_cases he hc with ⟨ha, rfl⟩ | ⟨-, -, hregs, hout, hdraws⟩
  · exact ⟨rfl, rfl, rfl, rfl, rfl, fun hst => absurd (accepted_endInput_iff.1 ha) hst⟩
  · obtain ⟨hd, hn, hcand, hp, -⟩ := registers_eq.1 hregs
    exact ⟨hd, hn, hcand, hp, hdraws, fun _ => ⟨hregs, hout⟩⟩

/-- BYTE on a hit leaves D, NEXT, the packer and OUT alone. -/
theorem execByte_hit_frame {b : Byte} (he : exec (.byte b) s = .next t)
    (hl : dictLookup s.dict (s.cand ++ [b]) ≠ none) :
    t.dict = s.dict ∧ t.next = s.next ∧ t.acc = s.acc ∧ t.cnt = s.cnt ∧ t.width = s.width ∧ t.out = s.out := by
  rcases exec_frame_cases he hc with ⟨-, ht⟩ | ⟨-, -, hregs, hout, -⟩
  · obtain ⟨k, hk⟩ := Option.ne_none_iff_exists'.1 hl
    rw [ht, commandFinal_byte, hk]
    exact ⟨rfl, rfl, rfl, rfl, rfl, rfl⟩
  · obtain ⟨hd, hn, -, -, hacc, hcnt, hw⟩ := registers_eq.1 hregs
    exact ⟨hd, hn, hacc, hcnt, hw, hout⟩

/-- BYTE, hit or miss: ST moves only to FAULT and only outside STREAM, and D changes at NEXT alone. -/
theorem execByte_frame {b : Byte} (he : exec (.byte b) s = .next t) :
    (t.st = s.st ∨ (t.st = .fault ∧ s.st ≠ .stream)) ∧ t.draws = s.draws ∧
      (∀ c : Code, c.toNat ≠ s.next.toNat → dictRead t.dict c = dictRead s.dict c) ∧
      (s.st ≠ .stream → t.registers = s.registers ∧ t.out = s.out) := by
  rcases exec_frame_cases he hc with ⟨ha, ht⟩ | ⟨ha, hst, hregs, hout, hdraws⟩
  · rw [ht]
    exact ⟨.inl (commandFinal_byte_st b s), (commandFinal_around (.byte b) s).2.2,
      fun c => dictRead_commandFinal_other (.byte b), fun hst => absurd (accepted_byte_iff.1 ha) hst⟩
  · have hne : s.st ≠ .stream := fun h => Bool.false_ne_true (ha.symm.trans (accepted_byte_iff.2 h))
    exact ⟨hst.imp_right fun h => ⟨h, hne⟩, hdraws, fun c _ => by rw [(registers_eq.1 hregs).1],
      fun _ => ⟨hregs, hout⟩⟩

end

/-- Settles O23, one frame lemma per command. -/
theorem commandFrames : Obligations.CommandFrames := by
  unfold Obligations.CommandFrames
  refine ⟨fun s t i => exec_surroundings, fun s t he hc => execStart_frame hc he, fun s t b he hc => ?_,
    fun s t he hc => execEndInput_frame hc he⟩
  obtain ⟨hst, hdraws, hdict, hout⟩ := execByte_frame hc he
  exact ⟨hst, hdraws, hdict, hout, execByte_hit_frame hc he⟩

/-! The bit queue. -/

theorem PackRegs.bits_length (p : PackRegs) : p.bits.length = p.cnt.toNat :=
  codeBits_length _ _

/-- Settles O40: packing is one emission (`pkPutCodes_eq`) of the whole bytes of the queue (`putsBytes_eq`). -/
theorem packerIsABitQueue : Obligations.PackerIsABitQueue := by
  unfold Obligations.PackerIsABitQueue
  intro s x xs hc hw q hready
  obtain ⟨hbytes, hbits, -, hwidth⟩ := putsBytes_eq (p := s.pack) (xs := xs) hc hw
  have hcnt : (putsRegs (x :: xs) s.pack).cnt.toNat = q.length % 8 := by
    rw [← PackRegs.bits_length, hbits]
    exact uncutBits_length q
  have hlen : (cutBytes q).length = q.length / 8 := cutBytes_length q
  refine ⟨(acceptBytes (cutBytes q) s).withPack (putsRegs (x :: xs) s.pack), ?_, rfl, hcnt, hbits, hwidth, ?_⟩
  · rw [pkPutCodes_eq, hbytes]
    exact emit_ready (hlen.symm ▸ hready)
  · rw [← hlen]
    rfl

end Sys2Proof.Machine
end

section
/-! PROOFS. The encoding family (30_encoding.md): command words, the codes of a session, the stream a session
puts out, and the assembler. -/

namespace Sys2Proof

/-! Command words. -/

/-- Fields stand for a command exactly when they are that command's own (R71, R73). -/
theorem command_eq_ok_iff (f : CmdFields) (i : Instr) : f.command = .ok i ↔ f = i.fields := by
  constructor
  · obtain ⟨op, rsv, data⟩ := f
    intro h
    unfold CmdFields.command at h
    split_ifs at h <;> cases h <;> simp_all [Instr.fields]
  · rintro rfl
    cases i <;> rfl

theorem encode_eq_iff (w : CmdWord) (i : Instr) : w = encode i ↔ CmdFields.ofWord w = i.fields := by
  constructor
  · rintro rfl
    exact ofWord_toWord i.fields
  · intro h
    rw [encode, ← h, toWord_ofWord]

theorem decode_eq_ok_iff (w : CmdWord) (i : Instr) : decode w = .ok i ↔ w = encode i := by
  rw [encode_eq_iff, decode, command_eq_ok_iff]

/-- Settles O3: a word and its fields determine each other, and fields stand for the command they are of. -/
theorem decodeEncodeAgree : Obligations.DecodeEncodeAgree :=
  decode_eq_ok_iff

/-- The three checks of the format pass exactly on the fields of a command (R70, R71). -/
theorem CmdFields.wf_iff (f : CmdFields) : f.wf = true ↔ ∃ i : Instr, f = i.fields := by
  constructor
  · obtain ⟨op, rsv, data⟩ := f
    intro h
    simp only [wf, rsvOk, opOk, dataOk, Bool.and_eq_true, Bool.or_eq_true, beq_iff_eq] at h
    obtain ⟨⟨rfl, (rfl | rfl) | rfl⟩, hdata⟩ := h
    · exact ⟨.start, by simp_all [Instr.fields]⟩
    · exact ⟨.byte data, rfl⟩
    · exact ⟨.endInput, by simp_all [Instr.fields]⟩
  · rintro ⟨i, rfl⟩
    cases i <;> rfl

/-- Settles O5. -/
theorem legalWordsPassTheFormatChecks : Obligations.LegalWordsPassTheFormatChecks := by
  unfold Obligations.LegalWordsPassTheFormatChecks
  intro w
  simp only [CmdFields.wf_iff, decode_eq_ok_iff, encode_eq_iff]

/-! Command words as numbers. -/

theorem encode_toNat (i : Instr) : (encode i).toNat =
    match i with | .start => 4096 | .byte b => 8192 + b.toNat | .endInput => 12288 := by
  rw [encode, toWord_toNat]
  cases i <;> simp [Instr.fields]

theorem decode_eq_ok_iff_toNat (w : CmdWord) (i : Instr) :
    decode w = .ok i ↔ w.toNat = (encode i).toNat := by
  rw [decode_eq_ok_iff, BitVec.toNat_inj]

/-- The encoding of BYTE, as R71 writes it. -/
theorem encode_byte_eq_or (b : Byte) : encode (.byte b) = 0x2000 ||| b.zeroExtend 16 := by
  apply BitVec.eq_of_toNat_eq
  have hb : b.toNat < 2 ^ 13 := Nat.lt_of_lt_of_le b.isLt (by decide)
  have hz : (b.zeroExtend 16 : CmdWord).toNat = b.toNat := by simp; omega
  have hor := Nat.two_pow_add_eq_or_of_lt hb 1
  rw [encode_toNat, BitVec.toNat_or, hz]
  exact hor

/-- A legal word is 0x1000, 0x2000 to 0x20FF, or 0x3000. -/
theorem decode_isSome_iff (w : CmdWord) : (decode w).toOption.isSome = true ↔
    w.toNat = 4096 ∨ (8192 ≤ w.toNat ∧ w.toNat < 8192 + 256) ∨ w.toNat = 12288 := by
  have hsome : (decode w).toOption.isSome = true ↔ ∃ i, decode w = .ok i := by
    cases decode w <;> simp [Except.toOption]
  simp only [hsome, decode_eq_ok_iff_toNat, encode_toNat]
  constructor
  · rintro ⟨_ | b | _, h⟩ <;> simp only at h <;> omega
  · rintro (h | h | h)
    · exact ⟨.start, h⟩
    · exact ⟨.byte (BitVec.ofNat 8 (w.toNat - 8192)), by simp only [BitVec.toNat_ofNat]; omega⟩
    · exact ⟨.endInput, h⟩

/-- The words with a reserved operation are illegal (R71, R74). -/
theorem decode_reserved_op {w : CmdWord} (h : w.toNat / 4096 = 0 ∨ 4 ≤ w.toNat / 4096) :
    ∃ e, decode w = .error e := by
  have hno := mt (decode_isSome_iff w).1 (by omega)
  cases hd : decode w with
  | error e => exact ⟨e, rfl⟩
  | ok i => simp [hd, Except.toOption] at hno

/-- Settles O1. -/
theorem commandWordPatterns : Obligations.CommandWordPatterns := by
  unfold Obligations.CommandWordPatterns
  refine ⟨rfl, rfl, fun b => ⟨?_, encode_byte_eq_or b⟩, rfl, rfl, fun w => decode_reserved_op⟩
  rw [← encode_byte_eq_or, decode_eq_ok_iff]

/-- R73's case split on the word's number, in its order. -/
def decodeNat (n : Nat) : Option Instr :=
  if n / 256 % 16 ≠ 0 then none
  else if n / 4096 = 1 ∧ n % 256 = 0 then some .start
  else if n / 4096 = 2 then some (.byte (BitVec.ofNat 8 (n % 256)))
  else if n / 4096 = 3 ∧ n % 256 = 0 then some .endInput
  else none

/-- The case split answers a command exactly on that command's word. -/
theorem decodeNat_eq_some_iff (n : Nat) (i : Instr) : decodeNat n = some i ↔ n = (encode i).toNat := by
  rw [encode_toNat]
  constructor
  · intro h
    unfold decodeNat at h
    split_ifs at h <;> cases h <;> simp only [BitVec.toNat_ofNat] <;> omega
  · rintro rfl
    cases i with
    | start => rfl
    | endInput => rfl
    | byte b =>
      have hrsv : (8192 + b.toNat) / 256 % 16 = 0 := by omega
      have hop : (8192 + b.toNat) / 4096 = 2 := by omega
      have hdata : (8192 + b.toNat) % 256 = b.toNat := by omega
      simp [decodeNat, hrsv, hop, hdata]

theorem decode_toOption (w : CmdWord) : (decode w).toOption = decodeNat w.toNat := by
  apply Option.ext
  intro i
  rw [decodeNat_eq_some_iff, ← decode_eq_ok_iff_toNat]
  cases decode w <;> simp [Except.toOption]

/-- The legal words, as numbers: START's, the 256 of BYTE, and END's. -/
theorem legal_words_count :
    ((List.range 65536).filter fun n => (decode (BitVec.ofNat 16 n)).toOption.isSome).length = 258 := by
  have hperm : ((List.range 65536).filter fun n => (decode (BitVec.ofNat 16 n)).toOption.isSome).Perm
      (4096 :: 12288 :: List.range' 8192 256) := by
    rw [List.perm_ext_iff_of_nodup (List.nodup_range.filter _)
      (by simp [List.nodup_range', List.mem_range'_1])]
    intro n
    simp only [List.mem_filter, List.mem_range, decode_isSome_iff, BitVec.toNat_ofNat, List.mem_cons,
      List.mem_range'_1]
    omega
  rw [hperm.length_eq, List.length_cons, List.length_cons, List.length_range']

/-- Settles O4. -/
theorem decodeIsTotalAsRuled : Obligations.DecodeIsTotalAsRuled :=
  ⟨decode_toOption, legal_words_count⟩

end Sys2Proof

namespace Sys2Proof.Machine

/-! The codes of a session. -/

/-- Settles O34: a stored string has a code below NEXT other than 256, and before the first packed code NEXT
is 257. -/
theorem emittedCodesAreNeverThePadCode : Obligations.EmittedCodesAreNeverThePadCode := by
  unfold Obligations.EmittedCodesAreNeverThePadCode
  intro s k h hp
  rcases h.pending with ⟨hnone, -⟩ | ⟨j, hj, hread⟩
  · exact absurd (hnone.symm.trans hp) nofun
  · obtain rfl := Option.some.inj (hj.symm.trans hp)
    obtain ⟨hlt, hne⟩ := h.dict.stored hread
    refine ⟨fun heq => hne (congrArg BitVec.toNat heq), hlt, fun hout => ?_⟩
    obtain ⟨hw, hc, hnext, -⟩ := h.firstCode hout
    rw [hnext, show (257 : BitVec 10).toNat = 257 from rfl] at hlt
    exact ⟨by omega, hc, hw⟩

/-! The dictionary against the strings learned, in order. -/

/-- The store holds these strings from code 257 on, and nothing has been learned besides. -/
structure Learned (d : Dict) (next : BitVec 10) (l : List Str) : Prop where
  next_eq : next.toNat = 257 + l.length
  read : ∀ (c : Code) (v : Str), 257 ≤ c.toNat → l[c.toNat - 257]? = some v → dictRead d c = .str v

theorem learned_nil : Learned [] 257 [] where
  next_eq := rfl
  read _ _ _ h := by simp at h

theorem refKnown_iff (l : List Str) (v : Str) : refKnown l v = true ↔ (∃ b, v = [b]) ∨ v ∈ l := by
  rw [refKnown, Bool.or_eq_true, beq_iff_eq, List.length_eq_one_iff, List.contains_iff_mem]

/-- A known string is a single byte, whose code is its value, or one learned, whose code is its place. -/
theorem refCode_cases {l : List Str} {v : Str} (hv : refKnown l v = true) :
    (∃ b, v = [b] ∧ refCode l v = b.toNat) ∨ (v ∈ l ∧ refCode l v = 257 + l.idxOf v) := by
  unfold refCode
  split
  · next b => exact .inl ⟨b, rfl, rfl⟩
  · next hne => exact .inr ⟨((refKnown_iff l v).1 hv).resolve_left fun ⟨b, hb⟩ => hne b hb, rfl⟩

section
variable {d : Dict} {next : BitVec 10} {l : List Str} (hd : DictInv d next) (hl : Learned d next l)
include hd hl

/-- The entry of a learned string. -/
theorem Learned.read_getElem {i : Nat} (hi : i < l.length) : dictRead d (BitVec.ofNat 9 (257 + i)) = .str l[i] := by
  have hcode : (BitVec.ofNat 9 (257 + i)).toNat = 257 + i := by
    have hnext := hl.next_eq
    have hcur := hd.cursor.2
    rw [BitVec.toNat_ofNat]
    omega
  apply hl.read _ _ (by omega)
  rw [hcode, Nat.add_sub_cancel_left, List.getElem?_eq_getElem hi]

/-- A known string is stored at its code. -/
theorem Learned.read_refCode {v : Str} (hv : refKnown l v = true) :
    dictRead d (BitVec.ofNat 9 (refCode l v)) = .str v := by
  rcases refCode_cases hv with ⟨b, rfl, hcode⟩ | ⟨hmem, hcode⟩
  · rw [hcode, BitVec.ofNat_toNat]
    exact (dictLookup_some (hd.lookup_literal b)).1
  · rw [hcode, hl.read_getElem hd (List.idxOf_lt_length_of_mem hmem), List.getElem_idxOf]

/-- A stored string is a known one. -/
theorem Learned.known_of_read {c : Code} {v : Str} (hc : dictRead d c = .str v) : refKnown l v = true := by
  rw [refKnown_iff]
  rcases hd.stored_cases hc with ⟨-, hv⟩ | ⟨hge, -⟩
  · exact .inl ⟨_, hv⟩
  · have hlt := (hd.stored hc).1
    have hi : c.toNat - 257 < l.length := by have := hl.next_eq; omega
    have hread := hl.read c _ hge (List.getElem?_eq_getElem hi)
    rw [Entry.str.inj (hc.symm.trans hread)]
    exact .inr (List.getElem_mem hi)

/-- DICT_LOOKUP answers the code of a known string, and NotFound of any other. -/
theorem Learned.lookup (v : Str) :
    dictLookup d v = if refKnown l v then some (BitVec.ofNat 9 (refCode l v)) else none := by
  split
  · next hv => exact hd.lookup_eq (hl.read_refCode hd hv)
  · next hv => exact dictLookup_none.2 fun c hc => hv (hl.known_of_read hd hc)

/-- The code of a stored string. -/
theorem Learned.refCode_eq {c : Code} {v : Str} (hc : dictRead d c = .str v) : refCode l v = c.toNat := by
  have hv := hl.known_of_read hd hc
  have hcode := hd.unique _ _ _ (hl.read_refCode hd hv) hc
  have hlt : refCode l v < 512 := by
    rcases refCode_cases hv with ⟨b, -, h⟩ | ⟨hmem, h⟩
    · rw [h]
      exact Nat.lt_trans b.isLt (by decide)
    · have hidx := List.idxOf_lt_length_of_mem hmem
      have hnext := hl.next_eq
      have hcur := hd.cursor.2
      omega
  rw [← hcode, BitVec.toNat_ofNat, Nat.mod_eq_of_lt hlt]

end

/-- DICT_INSERT learns the string, where a slot is free (R102, R103). -/
theorem Learned.learn {s : State} {l : List Str} (hwf : dictWf s.dict = true) (hd : DictInv s.dict s.next)
    (hl : Learned s.dict s.next l) (v : Str) : Learned (learn v s).dict (learn v s).next (refLearn l v) := by
  have hnext := hl.next_eq
  have hcur := hd.cursor.2
  by_cases hfree : s.next.toNat < 512
  · have hslot : (s.next.truncate 9 : Code).toNat = s.next.toNat := by
      rw [BitVec.truncate_eq_setWidth, BitVec.toNat_setWidth, Nat.mod_eq_of_lt hfree]
    rw [learn_free v hfree, refLearn, if_pos (by omega)]
    refine ⟨?_, fun c u hge hu => ?_⟩
    · rw [BitVec.toNat_add, show (1 : BitVec 10).toNat = 1 from rfl, List.length_append, List.length_singleton]
      omega
    · by_cases hc : c = s.next.truncate 9
      · have hi : c.toNat - 257 = l.length := by rw [hc, hslot]; omega
        rw [hi, List.getElem?_concat_length] at hu
        rw [hc, ← Option.some.inj hu]
        exact dictRead_write_same hwf _ _
      · have hne : c.toNat ≠ s.next.toNat := fun h => hc (BitVec.eq_of_toNat_eq (h.trans hslot.symm))
        have hi : c.toNat - 257 < l.length := by
          have := (List.getElem?_eq_some_iff.1 hu).1
          rw [List.length_append, List.length_singleton] at this
          omega
        rw [List.getElem?_append_left hi] at hu
        rw [dictRead_write_other _ _ hc]
        exact hl.read c u hge hu
  · rw [learn_full v (by omega), refLearn, if_neg (by omega)]
    exact hl

/-! A session under way. -/

/-- The engine in the middle of a session that started with the packer's registers `p`: the strings learned so
far, the codes packed so far, and a sink that accepts. -/
structure Encoding (p : PackRegs) (l : List Str) (codes : List Nat) (s : State) : Prop where
  inv : s.Inv
  st : s.st = .stream
  learned : Learned s.dict s.next l
  out : s.out = headerBytes ++ putsBytes codes p
  pack : s.pack = putsRegs codes p
  sink : ∀ a ∈ s.sink, a = SinkAnswer.accept

theorem commandFinal_sink (i : Instr) (s : State) :
    (commandFinal i s).sink = s.sink.drop (commandBytes i s).length := by
  cases i with
  | start => rfl
  | byte b =>
    rw [commandFinal_byte, commandBytes]
    cases dictLookup s.dict (s.cand ++ [b]) <;> rfl
  | endInput => rfl

theorem commandFinal_host (i : Instr) (s : State) : (commandFinal i s).host = s.host :=
  congrArg (fun x => x.2.1) (commandFinal_around i s).2.1

/-- A sink that accepts every byte still does after a command. -/
theorem commandFinal_sink_accepts (i : Instr) {s : State} (h : ∀ a ∈ s.sink, a = SinkAnswer.accept) :
    ∀ a ∈ (commandFinal i s).sink, a = SinkAnswer.accept := by
  rw [commandFinal_sink]
  exact fun a ha => h a (List.mem_of_mem_drop ha)

/-- The step of an accepted command's word, with a sink that accepts. -/
theorem step_accepted {s : State} {i : Instr} {rest : List HostAction} (hh : s.host = .command (encode i) :: rest)
    (ha : accepted s.st i = true) (hsink : ∀ a ∈ s.sink, a = SinkAnswer.accept) :
    step s = .next (commandFinal i { s with host := rest }) := by
  rw [step_action hh, runAction, runWord, decode_encode_ok]
  exact exec_ready ha (ready_all hsink _)

section
variable {p : PackRegs} {l : List Str} {codes : List Nat} {s : State} (h : Encoding p l codes s)
include h

theorem Encoding.withHost (rest : List HostAction) : Encoding p l codes { s with host := rest } :=
  ⟨h.inv.withHost rest, h.st, h.learned, h.out, h.pack, h.sink⟩

theorem Encoding.cause : s.cause = .noFault :=
  h.inv.faultCause.2 (by rw [h.st]; decide)

theorem Encoding.engine : s.EngineInv :=
  h.inv.engine (by rw [h.cause]; decide)

theorem Encoding.accepted_byte (b : Byte) : accepted s.st (.byte b) = true :=
  accepted_byte_iff.2 h.st

theorem Encoding.accepted_endInput : accepted s.st .endInput = true :=
  accepted_endInput_iff.2 h.st

/-- What is pending is the candidate's code, if there is a candidate. -/
theorem Encoding.pendingCodes_eq : pendingCodes s.pend s.cand = refCodes l s.cand [] := by
  rcases h.engine.pending with ⟨hp, hcand, -⟩ | ⟨k, hk, hread⟩
  · simp [hp, hcand, pendingCodes, refCodes]
  · rw [refCodes, if_neg (h.engine.dict.stored_ne_nil hread), h.learned.refCode_eq h.engine.dict hread, hk,
      pendingCodes]

/-- A known candidate grows (R120 step 3). -/
theorem Encoding.byte_known {b : Byte} (hk : refKnown l (s.cand ++ [b]) = true) :
    Encoding p l codes (commandFinal (.byte b) s) ∧ (commandFinal (.byte b) s).cand = s.cand ++ [b] := by
  have hinv := commandFinal_inv h.inv (h.accepted_byte b)
  have hlook := h.learned.lookup h.engine.dict (s.cand ++ [b])
  rw [if_pos hk] at hlook
  rw [commandFinal_byte, hlook] at hinv ⊢
  exact ⟨⟨hinv, h.st, h.learned, h.out, h.pack, h.sink⟩, rfl⟩

/-- At an unknown one the candidate's code is packed, the grown candidate is learned and the candidate starts
again (R120 step 4). -/
theorem Encoding.byte_unknown {b : Byte} (hk : ¬ refKnown l (s.cand ++ [b]) = true) :
    Encoding p (refLearn l (s.cand ++ [b])) (codes ++ [refCode l s.cand]) (commandFinal (.byte b) s) ∧
      (commandFinal (.byte b) s).cand = [b] := by
  have hinv := commandFinal_inv h.inv (h.accepted_byte b)
  have hsink := commandFinal_sink_accepts (.byte b) h.sink
  have hlook := h.learned.lookup h.engine.dict (s.cand ++ [b])
  rw [if_neg hk] at hlook
  obtain ⟨k, hpend, hread⟩ := pending_of_miss h.engine hlook
  have hcodes : pendingCodes s.pend s.cand = [refCode l s.cand] := by
    rw [hpend, h.learned.refCode_eq h.engine.dict hread, pendingCodes]
  rw [commandFinal_byte, hlook] at hinv hsink ⊢
  refine ⟨⟨hinv, h.st, h.learned.learn h.inv.canonical h.engine.dict _, ?_, ?_, hsink⟩, rfl⟩
  · rw [missFinal_out, hcodes, h.out, h.pack, putsBytes_append, List.append_assoc]
  · rw [putsRegs_append, ← h.pack, ← hcodes]
    rfl

/-- One BYTE of a session: the codes packed and those the input has still to give stay the same in all. -/
theorem Encoding.step_byte {b : Byte} {rest : List HostAction} (hh : s.host = .command (encode (.byte b)) :: rest) :
    ∃ t l' codes', step s = .next t ∧ t.host = rest ∧ Encoding p l' codes' t ∧
      ∀ input, codes ++ refCodes l s.cand (b :: input) = codes' ++ refCodes l' t.cand input := by
  have hstep := step_accepted hh (h.accepted_byte b) h.sink
  have hhost := commandFinal_host (.byte b) { s with host := rest }
  have h' := h.withHost rest
  by_cases hk : refKnown l (s.cand ++ [b]) = true
  · obtain ⟨henc, hcand⟩ := h'.byte_known hk
    exact ⟨_, l, codes, hstep, hhost, henc, fun input => by rw [refCodes, if_pos hk, hcand]⟩
  · obtain ⟨henc, hcand⟩ := h'.byte_unknown hk
    exact ⟨_, _, _, hstep, hhost, henc, fun input => by rw [refCodes, if_neg hk, hcand, List.append_cons]⟩

end

/-- Codes packed and then padded to a byte boundary, as bytes (R122, R142). -/
def paddedBytes (p : PackRegs) (codes : List Nat) : List Byte :=
  putsBytes (codes ++ List.replicate (padCount 8 (putsRegs codes p)) 256) p

/-- END packs the candidate's code and pads the stream. -/
theorem Encoding.endInput_out {p : PackRegs} {l : List Str} {codes : List Nat} {s : State}
    (h : Encoding p l codes s) :
    (commandFinal .endInput s).out = headerBytes ++ paddedBytes p (codes ++ refCodes l s.cand []) := by
  rw [endFinal_out, endCodes, h.pendingCodes_eq, h.out, h.pack, ← putsRegs_append, paddedBytes, List.append_assoc,
    List.append_assoc, ← putsBytes_append]

/-- The rest of a session: one BYTE per byte still to come, then END. -/
theorem Encoding.run {p : PackRegs} {l : List Str} {codes : List Nat} {s : State} {input : Str}
    {rest : List HostAction} (h : Encoding p l codes s)
    (hh : s.host = byteWords input ++ .command (encode .endInput) :: rest) :
    ∃ t, core.run (input.length + 1) s = .next t ∧ t.EndedWell ∧ t.host = rest ∧
      t.out = headerBytes ++ paddedBytes p (codes ++ refCodes l s.cand input) := by
  induction input generalizing l codes s with
  | nil =>
    have hstep := step_accepted hh h.accepted_endInput h.sink
    exact ⟨_, core_run_succ hstep 0, ⟨rfl, h.cause⟩, rfl, (h.withHost rest).endInput_out⟩
  | cons b input ih =>
    obtain ⟨u, l', codes', hstep, hhost, hu, hcodes⟩ := h.step_byte hh
    rw [List.length_cons, core_run_succ hstep, hcodes]
    exact ih hu hhost

/-! The stream as bits. -/

/-- The first code of a session is a literal (R124). -/
theorem refCodes_head_lt {cand input : Str} (hc : cand.length ≤ 1) {x : Nat} {xs : List Nat}
    (h : refCodes [] cand input = x :: xs) : x < 256 := by
  induction input generalizing cand with
  | nil =>
    match cand, hc with
    | [], _ => simp [refCodes] at h
    | [b], _ =>
      obtain ⟨rfl, -⟩ := List.cons.inj h
      exact b.isLt
  | cons b input ih =>
    match cand, hc with
    | [], _ => exact ih (cand := [b]) (Nat.le_refl 1) h
    | [a], _ =>
      obtain ⟨rfl, -⟩ := List.cons.inj h
      exact a.isLt

/-- From empty registers, the bytes are those of the padded bit sequence of the codes (R79, R144, R145). -/
theorem paddedBytes_eq {p : PackRegs} {codes : List Nat} (hc : p.cnt = 0)
    (hw : ∀ x xs, codes = x :: xs → FitsWidth x p.width) :
    paddedBytes p codes = cutBytes (padBits (streamBits p.width.toNat codes)) := by
  have hbits : p.bits = [] := by rw [PackRegs.bits, hc]; rfl
  cases codes with
  | nil => simp [paddedBytes, putsRegs, padCount_aligned hc, putsBytes, streamBits, padBits, cutBytes]
  | cons x xs =>
    have hfit := hw x xs rfl
    have hsmall : p.cnt.toNat ≤ 7 := by rw [hc]; decide
    obtain ⟨-, hleft, hcnt, hwidth⟩ := putsBytes_eq (xs := xs) hsmall hfit
    have hlen : (putsRegs (x :: xs) p).cnt.toNat = (streamBits p.width.toNat (x :: xs)).length % 8 := by
      rw [← PackRegs.bits_length, hleft, hbits, List.nil_append, uncutBits_length]
    rw [paddedBytes, List.cons_append, (putsBytes_eq hsmall hfit).1, hbits, List.nil_append,
      padCount_steady hwidth hcnt, hlen, padBits, ← List.flatMap_replicate, streamBits, streamBits,
      List.flatMap_append, List.append_assoc]

/-! A whole session. -/

theorem resetEngine_inv (s : State) : (resetEngine s).Inv :=
  ⟨rfl, by simp, by simp, fun _ => resetEngine_engineInv s⟩

/-- A reset and START open a session with nothing learned and nothing packed. -/
theorem encoding_start {s : State} {l : List HostAction} (hh : s.host = .reset :: .command (encode .start) :: l)
    (hsink : ∀ a ∈ s.sink, a = SinkAnswer.accept) :
    ∃ r t, step s = .next r ∧ step r = .next t ∧ Encoding (State.resetWith s.cfg).pack [] [] t ∧ t.cand = [] ∧
      t.host = l := by
  have hstart := step_accepted (s := resetEngine { s with host := .command (encode .start) :: l }) rfl rfl hsink
  refine ⟨_, _, step_action hh, hstart, ?_, rfl, rfl⟩
  exact
    { inv := commandFinal_inv ((resetEngine_inv _).withHost l) rfl
      st := rfl
      learned := learned_nil
      out := rfl
      pack := rfl
      sink := commandFinal_sink_accepts .start hsink }

/-- The first code fits the width FIRST_WIDTH, 8 or 9 (R124). -/
theorem refCodes_head_fits (c : Config) {input : Str} (x : Nat) (xs : List Nat) (h : refCodes [] [] input = x :: xs) :
    FitsWidth x c.firstWidth.bits := by
  have hx := refCodes_head_lt (cand := []) (Nat.zero_le 1) h
  rcases firstWidth_cases c with hw | hw
  · exact .inr ⟨hw, by omega⟩
  · exact .inl hw

/-- Settles O46: the reset and START lead into `Encoding`, `Encoding.run` is the induction over the input, and
`paddedBytes_eq` reads the bytes packed as the padded bit sequence. -/
theorem sessionOutputIsTheCodeStream : Obligations.SessionOutputIsTheCodeStream := by
  unfold Obligations.SessionOutputIsTheCodeStream
  intro s input rest hh hsink
  obtain ⟨r, u, hr, hu, henc, hcand, hhost⟩ := encoding_start hh hsink
  obtain ⟨t, hrun, hend, hrest, hout⟩ := henc.run (input := input) (rest := rest) (by simp [hhost, byteWords])
  refine ⟨t, (core_run_succ hr _).trans ((core_run_succ hu _).trans hrun), hend, hrest, ?_⟩
  rw [hout, List.nil_append, hcand, paddedBytes_eq rfl (refCodes_head_fits s.cfg)]
  rfl

/-! The scanner of a line (R81). -/

/-- A word runs on over letters and digits. -/
theorem scan_inWord_append {w : List Char} (hw : ∀ c ∈ w, c.isAlphanum = true) (acc rest : List Char) :
    scan (.inWord acc) (w ++ rest) = scan (.inWord (w.reverse ++ acc)) rest := by
  induction w generalizing acc with
  | nil => rfl
  | cons c w ih =>
    obtain ⟨hc, hw⟩ := List.forall_mem_cons.1 hw
    rw [List.cons_append, scan, if_pos hc, ih hw, List.reverse_cons, List.append_assoc]
    rfl

/-- A letter or digit begins a word. -/
theorem scan_between_alphanum {c : Char} (hc : c.isAlphanum = true) (cs : List Char) :
    scan .between (c :: cs) = scan (.inWord [c]) cs := by
  have hne : ∀ d : Char, d.isAlphanum = false → c ≠ d := fun d hd h => by rw [h, hd] at hc; cases hc
  have hblank : isBlank c = false := by
    simp [isBlank, hne ' ' (by decide), hne '\t' (by decide)]
  rw [scan, if_neg (hne ';' (by decide)), if_neg (by simp [hblank]), if_neg (hne ',' (by decide)),
    if_neg (hne '"' (by decide)), if_neg (hne '\'' (by decide)), if_pos hc]

/-- The spelling of a word token: letters and digits, at least one. -/
def IsWord (w : List Char) : Prop :=
  w ≠ [] ∧ ∀ c ∈ w, c.isAlphanum = true

theorem isWord_of_all {w : List Char} (h : (!w.isEmpty && w.all Char.isAlphanum) = true) : IsWord w := by
  simpa [IsWord] using h

theorem scan_word_append {w : List Char} (hw : IsWord w) (rest : List Char) :
    scan .between (w ++ rest) = scan (.inWord w.reverse) rest := by
  obtain ⟨hne, hall⟩ := hw
  cases w with
  | nil => exact absurd rfl hne
  | cons c w =>
    obtain ⟨hc, hw⟩ := List.forall_mem_cons.1 hall
    rw [List.cons_append, scan_between_alphanum hc, scan_inWord_append hw, List.reverse_cons]

/-- A word at the end of the line. -/
theorem scan_word {w : List Char} (hw : IsWord w) : scan .between w = some [.word w] := by
  have h := scan_word_append hw []
  rwa [List.append_nil, scan, List.reverse_reverse] at h

/-- A word and a blank. -/
theorem scan_word_blank {w : List Char} (hw : IsWord w) (rest : List Char) :
    scan .between (w ++ ' ' :: rest) = (scan .between rest).map (.word w :: ·) := by
  rw [scan_word_append hw, scan, List.reverse_reverse]
  rfl

/-- A word, a comma and a blank. -/
theorem scan_word_comma {w : List Char} (hw : IsWord w) (rest : List Char) :
    scan .between (w ++ ',' :: ' ' :: rest) = (scan .between rest).map (.word w :: .comma :: ·) := by
  rw [scan_word_append hw, scan, List.reverse_reverse]
  rfl

/-- A quoted character, whichever it is. -/
theorem scan_quoted (c : Char) : scan .between ['\'', c, '\''] = some [.char c] := rfl

theorem scan_inText {text : List Char} (h : ∀ c ∈ text, c ≠ '"') (acc : List Char) :
    scan (.inText acc) (text ++ ['"']) = some [.text (acc.reverse ++ text)] := by
  induction text generalizing acc with
  | nil => rw [List.append_nil]; rfl
  | cons c text ih =>
    obtain ⟨hc, htext⟩ := List.forall_mem_cons.1 h
    rw [List.cons_append, scan, if_neg hc, ih htext, List.reverse_cons, List.append_assoc]
    rfl

/-- A text in double quotes. -/
theorem scan_text {text : List Char} (h : ∀ c ∈ text, c ≠ '"') :
    scan .between ('"' :: (text ++ ['"'])) = some [.text text] :=
  scan_inText h []

/-- A comment after what scans changes nothing. -/
theorem scan_comment {m : ScanMode} {line : List Char} {ts : List Token} (h : scan m line = some ts)
    (comment : List Char) : scan m (line ++ ';' :: comment) = some ts := by
  induction m, line using scan.induct generalizing ts <;> simp_all [scan]
  case case4 ih | case12 ih | case13 ih | case16 ih | case21 ih =>
    -- a token is complete here, and the rest of the line is scanned on
    exact h.imp fun _ hrest => hrest.imp_left ih

/-! Immediates. -/

theorem digits_eq_ofDigitChars {cs : List Char} (h : ∀ c ∈ cs, c.isDigit = true) (acc : Nat) :
    digits 10 acc cs = some (Nat.ofDigitChars 10 cs acc) := by
  induction cs generalizing acc with
  | nil => rfl
  | cons c cs ih =>
    obtain ⟨hc, hcs⟩ := List.forall_mem_cons.1 h
    obtain ⟨h1, h2⟩ := Char.isDigit_iff_toNat.1 hc
    have hdig : hexDigit c = some (c.toNat - '0'.toNat) := if_pos ⟨h1, h2⟩
    have hlt : c.toNat - '0'.toNat < 10 := Nat.sub_lt_left_of_lt_add h1 (Nat.lt_succ_of_le h2)
    rw [digits, hdig, Nat.ofDigitChars_cons, Nat.mul_comm 10 acc]
    simp only [if_pos hlt]
    exact ih hcs _

/-- The decimal of a number reads as the number. -/
theorem digits_toDigits (n : Nat) : digits 10 0 (Nat.toDigits 10 n) = some n := by
  rw [digits_eq_ofDigitChars fun c => Nat.isDigit_of_mem_toDigits (by decide) (by decide),
    Nat.ofDigitChars_toDigits (by decide) (by decide)]

theorem isWord_toDigits (n : Nat) : IsWord (Nat.toDigits 10 n) :=
  ⟨Nat.toDigits_ne_nil, fun c hc => by
    rw [Char.isAlphanum, Nat.isDigit_of_mem_toDigits (by decide) (by decide) hc, Bool.or_true]⟩

/-- Either spelling of a hexadecimal digit reads as the digit, and is a letter or a decimal digit. -/
theorem hexChars_spec {n : Nat} (hn : n < 16) {c : Char} (hc : c ∈ hexChars n) :
    hexDigit c = some n ∧ c.isAlphanum = true := by
  have hall : ∀ m < 16, (hexChars m).all (fun c => hexDigit c = some m && c.isAlphanum) = true := by decide
  simpa using List.all_eq_true.1 (hall n hn) c hc

/-- A number of decimal digits is no hexadecimal one: it has no x. -/
theorem immediate_decimal {cs : List Char} (hne : cs ≠ []) (hdig : ∀ c ∈ cs, c.isDigit = true) :
    immediate (.word cs) = (digits 10 0 cs).bind fun n => if n ≤ 255 then some (BitVec.ofNat 8 n) else none := by
  unfold immediate
  split
  · next h =>
    cases h
    exact absurd (hdig 'x' (by simp)) (by decide)
  · next h =>
    cases h
    rfl
  · next h =>
    cases h
    exact absurd rfl hne
  · next h => cases h
  · next h => cases h
  · next h => cases h

/-- The decimal of a byte is that byte. -/
theorem immediate_toDigits (b : Byte) : immediate (.word (Nat.toDigits 10 b.toNat)) = some b := by
  rw [immediate_decimal Nat.toDigits_ne_nil fun c => Nat.isDigit_of_mem_toDigits (by decide) (by decide),
    digits_toDigits, Option.bind_some, if_pos (Nat.le_of_lt_succ b.isLt), BitVec.ofNat_toNat, BitVec.setWidth_eq]

/-- Each spelling `0xNN` of a byte is a word that stands for it. -/
theorem hexTexts_spec {b : Byte} {t : List Char} (ht : t ∈ hexTexts b) :
    IsWord t ∧ immediate (.word t) = some b := by
  simp only [hexTexts, List.mem_flatMap, List.mem_map] at ht
  obtain ⟨h, hh, l, hl, rfl⟩ := ht
  obtain ⟨hhi, hha⟩ := hexChars_spec (by omega) hh
  obtain ⟨hli, hla⟩ := hexChars_spec (by omega) hl
  refine ⟨isWord_of_all (by simp [hha, hla]), ?_⟩
  have hd : digits 16 0 [h, l] = some b.toNat := by
    simp only [digits, hhi, hli]
    rw [if_pos (by omega), if_pos (by omega)]
    congr 1
    omega
  rw [immediate, hd, Option.map_some, BitVec.ofNat_toNat, BitVec.setWidth_eq]

theorem asciiByte_ofNat {b : Byte} (h : b.toNat < 128) : asciiByte (Char.ofNat b.toNat) = some b := by
  have hc : (Char.ofNat b.toNat).toNat = b.toNat := by
    rw [Char.toNat_ofNat, if_pos (.inl (Nat.lt_trans h (by decide)))]
  rw [asciiByte, hc, if_pos h, BitVec.ofNat_toNat, BitVec.setWidth_eq]

/-- Every spelling of imm8 is one token, which stands for the byte. -/
theorem immTexts_spec {b : Byte} {t : List Char} (ht : t ∈ immTexts b) :
    ∃ tok, scan .between t = some [tok] ∧ immediate tok = some b := by
  rw [immTexts, List.mem_append, List.mem_append, List.mem_singleton] at ht
  rcases ht with (hhex | rfl) | hq
  · obtain ⟨hw, himm⟩ := hexTexts_spec hhex
    exact ⟨_, scan_word hw, himm⟩
  · exact ⟨_, scan_word (isWord_toDigits _), immediate_toDigits b⟩
  · split at hq
    · next hlt =>
      obtain rfl := List.mem_singleton.1 hq
      exact ⟨_, scan_quoted _, asciiByte_ofNat hlt⟩
    · cases hq

/-- The tokens of a list of words with commas between. -/
def commaTokens : List (List Char) → List Token
  | [] => []
  | [t] => [.word t]
  | t :: u :: rest => .word t :: .comma :: commaTokens (u :: rest)

theorem commaTokens_cons (t : List Char) (ts : List (List Char)) :
    ∃ rest, commaTokens (t :: ts) = .word t :: rest := by
  cases ts with
  | nil => exact ⟨_, rfl⟩
  | cons u ts => exact ⟨_, rfl⟩

theorem scan_commaList {ts : List (List Char)} (h : ∀ t ∈ ts, IsWord t) :
    scan .between (commaList ts) = some (commaTokens ts) := by
  induction ts using commaList.induct with
  | case1 => rfl
  | case2 t => exact scan_word (h t (List.mem_singleton_self t))
  | case3 t u rest ih =>
    obtain ⟨ht, hrest⟩ := List.forall_mem_cons.1 h
    rw [commaList, scan_word_comma ht, ih hrest]
    rfl

theorem immediates_commaTokens {l : List (Byte × List Char)} (hne : l ≠ [])
    (h : ∀ p ∈ l, immediate (.word p.2) = some p.1) :
    immediates (commaTokens (l.map Prod.snd)) = some (l.map Prod.fst) := by
  induction l with
  | nil => exact absurd rfl hne
  | cons p l ih =>
    obtain ⟨hp, hl⟩ := List.forall_mem_cons.1 h
    cases l with
    | nil => simp [commaTokens, immediates, hp]
    | cons q l =>
      have htail := ih (List.cons_ne_nil _ _) hl
      simp only [List.map_cons] at htail ⊢
      rw [commaTokens, immediates, hp, htail]
      rfl

/-- The bytes of an ASCII text. -/
theorem textBytes_eq {text : List Char} (h : ∀ c ∈ text, c.toNat < 128) :
    textBytes text = some (text.map fun c => BitVec.ofNat 8 c.toNat) := by
  induction text with
  | nil => rfl
  | cons c text ih =>
    obtain ⟨hc, htext⟩ := List.forall_mem_cons.1 h
    have htail := ih htext
    rw [textBytes] at htail ⊢
    rw [List.mapM_cons, htail, asciiByte, if_pos hc]
    rfl

/-! Lines and listings. -/

theorem statement_byte (t : Token) :
    statement [.word ['B', 'Y', 'T', 'E'], t] = (immediate t).map fun b => [issue (.byte b)] := rfl

theorem statement_bytes_text (t : List Char) :
    statement [.word ['B', 'Y', 'T', 'E', 'S'], .text t] =
      (textBytes t).map fun bs => bs.map fun b => issue (.byte b) := rfl

theorem statement_bytes_list (w : List Char) (ts : List Token) :
    statement (.word ['B', 'Y', 'T', 'E', 'S'] :: .word w :: ts) =
      (immediates (.word w :: ts)).map fun bs => bs.map fun b => issue (.byte b) := rfl

theorem statement_encode_text (t : List Char) :
    statement [.word ['E', 'N', 'C', 'O', 'D', 'E'], .text t] =
      (textBytes t).map fun bs => issue .start :: (bs.map fun b => issue (.byte b)) ++ [issue .endInput] := rfl

/-- A mnemonic, a blank and the rest of the line. -/
theorem assembleLine_mnemonic {w rest : List Char} {ts : List Token} (hw : IsWord w)
    (h : scan .between rest = some ts) : assembleLine (w ++ ' ' :: rest) = statement (.word w :: ts) := by
  rw [assembleLine, scan_word_blank hw, h]
  rfl

theorem assembleLine_byte {b : Byte} {t : List Char} (ht : t ∈ immTexts b) :
    assembleLine ("BYTE ".toList ++ t) = some [.command (encode (.byte b))] := by
  obtain ⟨tok, hscan, himm⟩ := immTexts_spec ht
  have hline := assembleLine_mnemonic (w := ['B', 'Y', 'T', 'E']) (isWord_of_all rfl) hscan
  rw [statement_byte, himm] at hline
  exact hline

theorem assembleLine_bytes_text {text : List Char} (h : ∀ c ∈ text, c.toNat < 128 ∧ c ≠ '"') :
    assembleLine ("BYTES \"".toList ++ text ++ ['"']) =
      some (byteWords (text.map fun c => BitVec.ofNat 8 c.toNat)) := by
  have hline := assembleLine_mnemonic (w := ['B', 'Y', 'T', 'E', 'S']) (isWord_of_all rfl)
    (scan_text fun c hc => (h c hc).2)
  rw [statement_bytes_text, textBytes_eq fun c hc => (h c hc).1] at hline
  exact hline

theorem assembleLine_encode_text {text : List Char} (h : ∀ c ∈ text, c.toNat < 128 ∧ c ≠ '"') :
    assembleLine ("ENCODE \"".toList ++ text ++ ['"']) =
      some (sessionActions (text.map fun c => BitVec.ofNat 8 c.toNat)) := by
  have hline := assembleLine_mnemonic (w := ['E', 'N', 'C', 'O', 'D', 'E']) (isWord_of_all rfl)
    (scan_text fun c hc => (h c hc).2)
  rw [statement_encode_text, textBytes_eq fun c hc => (h c hc).1] at hline
  exact hline

theorem assembleLine_bytes_list {l : List (Byte × List Char)} (hne : l ≠ []) (h : ∀ p ∈ l, p.2 ∈ hexTexts p.1) :
    assembleLine ("BYTES ".toList ++ commaList (l.map Prod.snd)) = some (byteWords (l.map Prod.fst)) := by
  have hscan : scan .between (commaList (l.map Prod.snd)) = some (commaTokens (l.map Prod.snd)) := by
    apply scan_commaList
    intro t ht
    obtain ⟨p, hp, rfl⟩ := List.mem_map.1 ht
    exact (hexTexts_spec (h p hp)).1
  have hline := assembleLine_mnemonic (w := ['B', 'Y', 'T', 'E', 'S']) (isWord_of_all rfl) hscan
  have himm := immediates_commaTokens hne fun p hp => (hexTexts_spec (h p hp)).2
  obtain ⟨p, l, rfl⟩ := List.exists_cons_of_ne_nil hne
  obtain ⟨ts, hts⟩ := commaTokens_cons p.2 (l.map Prod.snd)
  rw [List.map_cons] at hline himm ⊢
  rw [hts, statement_bytes_list, ← hts, himm] at hline
  exact hline

theorem assembleLine_comment {line : List Char} {as : List HostAction} (h : assembleLine line = some as)
    (comment : List Char) : assembleLine (line ++ ';' :: comment) = some as := by
  obtain ⟨ts, hscan, hstmt⟩ := Option.bind_eq_some_iff.1 h
  rw [assembleLine, scan_comment hscan, Option.bind_some, hstmt]

theorem assemble_append (lines more : List (List Char)) :
    assemble (lines ++ more) = (assemble lines).bind fun as => (assemble more).map (as ++ ·) := by
  induction lines with
  | nil => simp [assemble]
  | cons line lines ih =>
    rw [List.cons_append, assemble, assemble, ih]
    cases assembleLine line with
    | none => rfl
    | some as => cases assemble lines <;> cases assemble more <;> simp

/-- Settles O47: a line scans to a mnemonic and its operands (`assembleLine_mnemonic`), and each operand's spelling
stands for its bytes (`immTexts_spec`, `hexTexts_spec`, `textBytes_eq`). -/
theorem assemblySyntax : Obligations.AssemblySyntax := by
  unfold Obligations.AssemblySyntax
  exact ⟨⟨by decide, by decide, by decide⟩, fun b t => assembleLine_byte,
    fun text h => ⟨assembleLine_bytes_text h, assembleLine_encode_text h⟩, fun l => assembleLine_bytes_list,
    fun line comment as h => assembleLine_comment h comment, assemble_append⟩

end Sys2Proof.Machine
end

section
/-! PROOFS. The dictionary family (41_dictionary.md): what DICT_LOOKUP answers, what DICT_INSERT stores, a miss
with a full dictionary, and the prefixes of stored strings. -/

namespace Sys2Proof.Machine

/-! DICT_LOOKUP. -/

/-- DICT_LOOKUP answers a code exactly when it is the first, in code order, that holds the string (R101). -/
theorem dictLookup_eq_some_iff {d : Dict} {v : Str} {c : Code} : dictLookup d v = some c ↔
    dictRead d c = .str v ∧ ∀ a : Code, a.toNat < c.toNat → dictRead d a ≠ .str v := by
  refine ⟨dictLookup_some, fun ⟨hread, hfirst⟩ => ?_⟩
  rw [dictLookup]
  exact find_first (decide_eq_true hread) fun a ha => decide_eq_false (hfirst a ha)

theorem DictInv.lookup_nil {d : Dict} {next : BitVec 10} (h : DictInv d next) : dictLookup d [] = none :=
  dictLookup_none.2 fun _ hc => h.stored_ne_nil hc rfl

/-- Settles O25: a code DICT_LOOKUP answers holds a string, so it is below NEXT and not 256 (`DictInv.stored`). -/
theorem lookupIsExactEquality : Obligations.LookupIsExactEquality := by
  unfold Obligations.LookupIsExactEquality
  refine ⟨fun d v c => dictLookup_eq_some_iff, fun d v => dictLookup_none,
    fun d n h => ⟨h.lookup_literal, h.lookup_nil, fun v c hc => ?_⟩⟩
  exact (h.stored (dictLookup_some hc).1).symm

/-! DICT_INSERT. -/

theorem next_succ_toNat {n : BitVec 10} (h : n.toNat < 512) : (n + 1).toNat = n.toNat + 1 := by
  rw [BitVec.toNat_add, show (1 : BitVec 10).toNat = 1 from rfl]
  omega

theorem slot_toNat {n : BitVec 10} (h : n.toNat < 512) : (n.truncate 9 : Code).toNat = n.toNat := by
  rw [BitVec.truncate_eq_setWidth, BitVec.toNat_setWidth, Nat.mod_eq_of_lt h]

/-- Settles O26: `dictInsert_assigned` is one write at NEXT, read back by the laws of the store. -/
theorem insertAssignsTheNextSlot : Obligations.InsertAssignsTheNextSlot := by
  unfold Obligations.InsertAssignsTheNextSlot
  refine ⟨fun v s hfree hwf => ?_, fun v s => dictInsert_full v⟩
  have hnext := next_succ_toNat hfree
  rw [BitVec.ofNat_toNat, ← BitVec.truncate_eq_setWidth]
  refine ⟨_, dictInsert_assigned v hfree, rfl, hnext, dictWf_write hwf _ _, dictRead_write_same hwf _ _,
    fun c hne => dictRead_write_other _ _ fun heq => hne ?_, ?_⟩
  · rw [heq, slot_toNat hfree]
  · rw [State.dictFull_iff, hnext]
    omega

/-! A full dictionary. -/

/-- One code packed at width 9 is at most two bytes (R39). -/
theorem putsBytes_single_length_le {x : Nat} {p : PackRegs} (hw : p.width = 9) (hc : p.cnt.toNat ≤ 7) :
    (putsBytes [x] p).length ≤ 2 := by
  have hcount := putsBytes_count x [] p
  rw [hw, List.length_nil, show (9 : BitVec 4).toNat = 9 from rfl] at hcount
  omega

/-- BYTE on a miss with a code pending, at width 9 and with a sink that takes two bytes, has its whole effect. -/
theorem execByte_miss_steady {s : State} {b : Byte} {k : Code} (hst : s.st = .stream) (hp : s.pend = some k)
    (hl : dictLookup s.dict (s.cand ++ [b]) = none) (hw : s.width = 9) (hc : s.cnt.toNat ≤ 7)
    (hready : s.SinkReady 2) : exec (.byte b) s = .next (byteFinal b s none) := by
  have hbytes : commandBytes (.byte b) s = putsBytes [k.toNat] s.pack := by
    rw [commandBytes, hl, byteBytes, hp, pendingCodes]
  have hlen := putsBytes_single_length_le (x := k.toNat) (p := s.pack) hw hc
  rw [exec_ready (accepted_byte_iff.2 hst) (ready_le hready (hbytes ▸ hlen)), commandFinal_byte, hl]

/-- Settles O27: DICT_INSERT answers Full and changes nothing (`learn_full`), and the pending code joins the bit
queue (`putsBytes_steady`). -/
theorem fullDictionaryKeepsEncoding : Obligations.FullDictionaryKeepsEncoding := by
  unfold Obligations.FullDictionaryKeepsEncoding
  intro s b k hst hfull hp hl hw hc hready
  have hlearn : learn (s.cand ++ [b]) s = s := learn_full _ (by rw [hfull]; decide)
  have hcodes : pendingCodes s.pend s.cand = [k.toNat] := by rw [hp, pendingCodes]
  obtain ⟨hbytes, hbits, -, -⟩ := putsBytes_steady (xs := [k.toNat]) (p := s.pack) hc hw
  rw [List.flatMap_singleton] at hbytes hbits
  have hnext : (byteFinal b s none).next = 512 := by rw [missFinal_next, hlearn, hfull]
  refine ⟨_, execByte_miss_steady hst hp hl hw hc hready, hst, rfl, ?_, hnext, ?_, rfl, ?_, ?_, ?_⟩
  · rw [missFinal_dict, hlearn]
  · rw [State.dictFull_iff, hnext]
    rfl
  · rw [missFinal_pend, hlearn]
  · rw [missFinal_out, hcodes, hbytes]
    rfl
  · rw [State.pendingBits, missFinal_cnt, missFinal_acc, hcodes]
    exact hbits

/-! The prefixes of stored strings. -/

/-- R36: a learned string's proper prefixes are the string it extends, at a smaller code, and the proper prefixes
of that one; a single byte has none but the empty string. -/
theorem DictInv.stored_of_prefix {d : Dict} {next : BitVec 10} (h : DictInv d next) {c : Code} {u v : Str}
    (hc : dictRead d c = .str v) (hu : u ≠ []) (hpre : u <+: v) (hne : u ≠ v) :
    ∃ j : Code, j.toNat < c.toNat ∧ dictRead d j = .str u := by
  induction hn : c.toNat using Nat.strong_induction_on generalizing c v with
  | _ n ih =>
    subst hn
    rcases h.stored_cases hc with ⟨-, rfl⟩ | ⟨-, j, p, b, hj, -, hp, rfl⟩
    · have hnil := (List.prefix_concat_iff (l₂ := [])).1 hpre |>.resolve_left hne
      exact absurd (List.prefix_nil.1 hnil) hu
    · have hpre := (List.prefix_concat_iff.1 hpre).resolve_left hne
      by_cases heq : u = p
      · exact ⟨j, hj, heq ▸ hp⟩
      · obtain ⟨i, hi, hread⟩ := ih j.toNat hj hp hpre heq rfl
        exact ⟨i, hi.trans hj, hread⟩

/-- Settles O29, by `DictInv.stored_of_prefix`, an induction on the code. -/
theorem dictionaryIsPrefixClosed : Obligations.DictionaryIsPrefixClosed := by
  unfold Obligations.DictionaryIsPrefixClosed
  exact fun d n c u v h => h.stored_of_prefix

end Sys2Proof.Machine
end

section
/-! PROOFS. The encoder loop family (42_encoder_loop.md): BYTE on a hit, BYTE on a miss and END, each with its whole
next state. -/

namespace Sys2Proof.Machine

theorem ready_zero (s : State) : s.SinkReady 0 :=
  nofun

theorem engineInv_of_stream {s : State} (hI : s.Inv) (hst : s.st = .stream) : s.EngineInv :=
  engineInv_of_accepted hI (accepted_endInput_iff.2 hst)

/-- Settles O19: a hit offers the sink no byte, so the sink is ready for it whatever it answers. -/
theorem byteHitExtendsTheMatch : Obligations.ByteHitExtendsTheMatch := by
  unfold Obligations.ByteHitExtendsTheMatch
  intro s b k hst hl
  have hsent : commandBytes (.byte b) s = [] := by rw [commandBytes, hl, byteBytes]
  rw [exec_ready (accepted_byte_iff.2 hst) (hsent ▸ ready_zero s), commandFinal_byte, hl, byteFinal]

/-! The bits of the pending code. -/

/-- The pending bits with the bits of a code, at the present width, after them (R140, R145). -/
def State.bitsWith (s : State) (k : Code) : List Bool :=
  s.pendingBits ++ codeBits s.width.toNat k.toNat

section
variable {s : State} (h : s.EngineInv) {k : Code} (hp : s.pend = some k)
include h hp

/-- A pending code fits the width it will be packed at: only the session's first code, a literal, can meet width 8
(R124). -/
theorem pending_fitsWidth : FitsWidth k.toNat s.width := by
  rcases Nat.lt_or_ge 3 s.out.length with hlong | hshort
  · exact .inl (h.laterCodes hlong).1
  · obtain ⟨-, -, hfirst⟩ := emittedCodesAreNeverThePadCode s k h hp
    obtain ⟨hk, -, hw⟩ := hfirst hshort
    rw [hw]
    exact (firstWidth_cases s.cfg).elim (fun h8 => .inr ⟨h8, by omega⟩) .inl

theorem bitsWith_length_le : (s.bitsWith k).length ≤ 16 := by
  have hw : s.width.toNat ≤ 9 := by
    rcases pending_fitsWidth h hp with hw | ⟨hw, -⟩ <;> rw [hw] <;> decide
  have hc := h.cntSmall
  rw [State.bitsWith, State.pendingBits, List.length_append, codeBits_length, codeBits_length]
  omega

/-- Packing the pending code, and then codes at width 9, cuts their bits into bytes (R145). -/
theorem pending_packs (xs : List Nat) :
    putsBytes (k.toNat :: xs) s.pack = cutBytes (s.bitsWith k ++ xs.flatMap (codeBits 9)) ∧
      (putsRegs (k.toNat :: xs) s.pack).bits = uncutBits (s.bitsWith k ++ xs.flatMap (codeBits 9)) := by
  obtain ⟨hbytes, hbits, -⟩ := putsBytes_eq (p := s.pack) (xs := xs) h.cntSmall (pending_fitsWidth h hp)
  rw [streamBits, ← List.append_assoc] at hbytes hbits
  exact ⟨hbytes, hbits⟩

theorem pending_packs_single :
    putsBytes [k.toNat] s.pack = cutBytes (s.bitsWith k) ∧
      (putsRegs [k.toNat] s.pack).bits = uncutBits (s.bitsWith k) ∧
      (putsRegs [k.toNat] s.pack).cnt.toNat = (s.bitsWith k).length % 8 := by
  obtain ⟨hbytes, hbits⟩ := pending_packs h hp []
  rw [List.flatMap_nil, List.append_nil] at hbytes hbits
  exact ⟨hbytes, hbits, by rw [← PackRegs.bits_length, hbits, uncutBits_length]⟩

/-- END packs the pending code and then the pad codes of R79. -/
theorem endCodes_pending : endCodes s = k.toNat :: List.replicate ((8 - (s.bitsWith k).length % 8) % 8) 256 := by
  obtain ⟨-, -, hcnt⟩ := pending_packs_single h hp
  rw [endCodes, hp, pendingCodes, ← hcnt, ← padCount_steady (putsRegs_width _ _ _) (putsRegs_cnt_small _ _ _)]
  rfl

/-- The bytes END sends are the padded bits cut into bytes. -/
theorem endBytes_pending : putsBytes (endCodes s) s.pack = cutBytes (padBits (s.bitsWith k)) := by
  rw [endCodes_pending h hp, (pending_packs h hp _).1, List.flatMap_replicate, padBits]

end

theorem padBits_length (q : List Bool) : (padBits q).length = q.length + 9 * ((8 - q.length % 8) % 8) := by
  simp [padBits, Nat.mul_comm]

/-! BYTE on a miss. -/

/-- DICT_INSERT with its answer ignored, by the cursor's value (R102). -/
theorem learn_eq_ite (v : Str) {s : State} (hn : s.next.toNat ≤ 512) : learn v s = { s with
    dict := if s.next = 512 then s.dict else dictWrite s.dict (s.next.truncate 9) (.str v)
    next := if s.next = 512 then 512 else s.next + 1 } := by
  by_cases hfull : s.next = 512
  · rw [if_pos hfull, if_pos hfull, learn_full v (by rw [hfull]; decide), ← hfull]
  · have hne : s.next.toNat ≠ 512 := fun heq => hfull (BitVec.eq_of_toNat_eq heq)
    rw [if_neg hfull, if_neg hfull, learn_free v (by omega)]

section
variable {s : State} {b : Byte} (h : s.EngineInv) {k : Code} (hp : s.pend = some k)
  (hl : dictLookup s.dict (s.cand ++ [b]) = none)
include h hp hl

/-- A miss packs one code, at most two bytes with the bits pending before it (R39), so a sink that takes two takes
them all. -/
theorem execByte_miss_ready (hst : s.st = .stream) (hready : s.SinkReady 2) :
    exec (.byte b) s = .next (byteFinal b s none) := by
  have hsent : commandBytes (.byte b) s = cutBytes (s.bitsWith k) := by
    rw [commandBytes, hl, byteBytes, hp, pendingCodes, (pending_packs_single h hp).1]
  have hle : (commandBytes (.byte b) s).length ≤ 2 := by
    have hbits := bitsWith_length_le h hp
    rw [hsent, cutBytes_length]
    omega
  rw [exec_ready (accepted_byte_iff.2 hst) (ready_le hready hle), commandFinal_byte, hl]

/-- What a miss leaves, every field but ACC written out (R120 step 4). -/
theorem missFinal_eq (hI : s.Inv) : byteFinal b s none = { s with
    dict := if s.next = 512 then s.dict else dictWrite s.dict (s.next.truncate 9) (.str (s.cand ++ [b]))
    next := if s.next = 512 then 512 else s.next + 1
    cand := [b]
    pend := some (b.zeroExtend 9)
    acc := (byteFinal b s none).acc
    cnt := BitVec.ofNat 5 ((s.bitsWith k).length % 8)
    width := 9
    out := s.out ++ cutBytes (s.bitsWith k)
    delivered := s.delivered ++ cutBytes (s.bitsWith k)
    sink := s.sink.drop ((s.bitsWith k).length / 8) } := by
  obtain ⟨hbytes, -, hcnt⟩ := pending_packs_single h hp
  have hlit := (learn_inv hI h hl).1.lookup_literal b
  rw [missFinal_acc, byteFinal, hlit, learn_eq_ite _ h.dict.cursor.2, hp, pendingCodes, hbytes, acceptBytes,
    cutBytes_length, State.withPack, ← hcnt, BitVec.ofNat_toNat, BitVec.setWidth_eq]
  rfl

end

/-- Settles O20: on a miss a code is pending (`pending_of_miss`), and its bits join the bit queue
(`pending_packs_single`). -/
theorem byteMissEmitsAndLearns : Obligations.ByteMissEmitsAndLearns := by
  unfold Obligations.ByteMissEmitsAndLearns
  intro s b hI hst hready hl
  have h := engineInv_of_stream hI hst
  obtain ⟨k, hp, -⟩ := pending_of_miss h hl
  refine ⟨k, byteFinal b s none, hp, execByte_miss_ready h hp hl hst hready, ?_, missFinal_eq h hp hl hI⟩
  rw [State.pendingBits, missFinal_cnt, missFinal_acc, hp, pendingCodes]
  exact (pending_packs_single h hp).2.1

/-! END. -/

/-- END with no byte fed offers the sink nothing (R122, R123). -/
theorem execEndInput_empty {s : State} (h : s.EngineInv) (hst : s.st = .stream) (hp : s.pend = none) :
    exec .endInput s = .next { s with st := .done } := by
  obtain ⟨hcodes, -⟩ := endCodes_empty h hp
  have hsent : commandBytes .endInput s = [] := by rw [commandBytes, hcodes, putsBytes]
  rw [exec_ready (accepted_endInput_iff.2 hst) (hsent ▸ ready_zero s), commandFinal_endInput_empty hcodes]

section
variable {s : State} (h : s.EngineInv) {k : Code} (hp : s.pend = some k)
include h hp

/-- END sends at most nine bytes: at 9 bits it pads with seven codes. -/
theorem execEndInput_ready (hst : s.st = .stream) (hready : s.SinkReady 9) :
    exec .endInput s = .next (commandFinal .endInput s) := by
  have hle : (commandBytes .endInput s).length ≤ 9 := by
    have hbits := bitsWith_length_le h hp
    rw [commandBytes, endBytes_pending h hp, cutBytes_length, padBits_length]
    omega
  exact exec_ready (accepted_endInput_iff.2 hst) (ready_le hready hle)

/-- What END leaves with a code pending, every field but ACC written out (R122, R166). -/
theorem endFinal_eq : commandFinal .endInput s = { s with
    st := .done
    acc := (commandFinal .endInput s).acc
    cnt := 0
    width := 9
    out := s.out ++ cutBytes (padBits (s.bitsWith k))
    delivered := s.delivered ++ cutBytes (padBits (s.bitsWith k))
    sink := s.sink.drop ((padBits (s.bitsWith k)).length / 8) } := by
  have hwidth : (putsRegs (endCodes s) s.pack).width = 9 := by
    rw [endCodes_pending h hp]
    exact putsRegs_width _ _ _
  rw [endFinal_acc, commandFinal, endBytes_pending h hp, acceptBytes, cutBytes_length, State.withPack,
    endCodes_aligned hp, hwidth]

end

/-- Settles O21: with a code pending END sends the padded bit sequence (`endBytes_pending`), and the pad codes end
it at a byte boundary (`padBits_length`, `endCodes_aligned`). -/
theorem endEmitsAndPads : Obligations.EndEmitsAndPads := by
  unfold Obligations.EndEmitsAndPads
  refine ⟨fun s hI hst => execEndInput_empty (engineInv_of_stream hI hst) hst, fun s k hI hst hp hready => ?_⟩
  have h := engineInv_of_stream hI hst
  refine ⟨_, execEndInput_ready h hp hst hready, ?_, endFinal_eq h hp⟩
  change (padBits (s.bitsWith k)).length % 8 = 0
  rw [padBits_length]
  omega

end Sys2Proof.Machine
end

section
/-! PROOFS. The bit packer family (43_bit_packer.md): PK_PUT_CODE in numbers, PK_PUT_STRING, PK_FLUSH with its
table, and how many bytes each command sends. -/

namespace Sys2Proof.Machine

/-! PK_PUT_CODE in numbers. -/

theorem packedValue_toNat (x : Nat) : (packedValue x).toNat = x % 512 := by
  rw [packedValue, lowNine, BitVec.zeroExtend_eq_setWidth, BitVec.toNat_setWidth, BitVec.toNat_ofNat]
  omega

theorem packedValue_mod (x : Nat) : packedValue (x % 512) = packedValue x := by
  apply BitVec.eq_of_toNat_eq
  rw [packedValue_toNat, packedValue_toNat, Nat.mod_mod]

/-- The accumulator after a code is shifted in, as a number (R140). -/
theorem shiftIn_toNat (x : Nat) (p : PackRegs) :
    (shiftIn x p).toNat = (p.acc.toNat * 2 ^ p.width.toNat) % 2 ^ 32 ||| x % 512 := by
  rw [shiftIn, BitVec.toNat_or, BitVec.toNat_shiftLeft, Nat.shiftLeft_eq, packedValue_toNat]

theorem extractByte_eq (acc : BitVec 32) (i : Nat) : acc.extractLsb' i 8 = BitVec.ofNat 8 (acc.toNat / 2 ^ i) := by
  rw [BitVec.extractLsb', Nat.shiftRight_eq_div_pow]

/-- With 8 to 16 bits in the accumulator PK_PUT_CODE sends its top byte, and the byte below it at 16 bits (R140). -/
theorem wholeBytes_eq_ite {n : Nat} (hlow : 8 ≤ n) (hhigh : n ≤ 16) (acc : BitVec 32) :
    wholeBytes n acc = if n = 16 then [BitVec.ofNat 8 (acc.toNat / 2 ^ 8), BitVec.ofNat 8 acc.toNat]
      else [BitVec.ofNat 8 (acc.toNat / 2 ^ (n - 8))] := by
  rw [wholeBytes_step hlow, extractByte_eq]
  split
  · next h16 =>
    subst h16
    rw [wholeBytes_step (by decide), wholeBytes_short (by decide), extractByte_eq, Nat.sub_self, pow_zero, Nat.div_one]
  · rw [wholeBytes_short (by omega)]

theorem emit_refused {bs : List Byte} {p : PackRegs} {s : State} {k : Nat} (hk : k < bs.length)
    (h : s.SinkRefusesAfter k) : emit bs p s = .raised (refuseByte (acceptBytes (bs.take k) s)) := by
  rw [emit_eq, refusalWithin_some.2 ⟨hk, h⟩]

/-- Only the low 9 bits of x take part in PK_PUT_CODE(x) (R143). -/
theorem pkPutCode_mod (x : Nat) (s : State) : pkPutCode x s = pkPutCode (x % 512) s := by
  rw [pkPutCode, pkPutCode, packedValue_mod]

/-- Settles O36: PK_PUT_CODE is one emission (`pkPutCode_eq`), whose bytes are the top ones of the shifted
accumulator (`wholeBytes_eq_ite`). -/
theorem putCodeShiftsAndSends : Obligations.PutCodeShiftsAndSends := by
  unfold Obligations.PutCodeShiftsAndSends
  refine ⟨?_, fun s x => pkPutCode_mod x s⟩
  intro s x hc hw n a bs
  have hacc : (shiftIn x s.pack).toNat = a := shiftIn_toNat x s.pack
  obtain ⟨hlow, hhigh⟩ : 8 ≤ s.width.toNat ∧ s.width.toNat ≤ 9 := by rcases hw with hw | hw <;> rw [hw] <;> decide
  have hbytes : putBytes x s.pack = bs := by
    rw [putBytes, wholeBytes_eq_ite (n := shiftedCount s.pack) (Nat.le_add_left_of_le hlow)
      (Nat.add_le_add hc hhigh), hacc]
    rfl
  rw [pkPutCode_eq, hbytes]
  refine ⟨fun hready => ?_, fun k hk hrefuses => ?_⟩
  · rw [emit_ready hready, ← hacc, BitVec.ofNat_toNat, BitVec.setWidth_eq]
    rfl
  · exact ⟨_, emit_refused hk hrefuses, refuseByte_st _, refuseByte_cause _, refuseByte_out _⟩

/-! PK_PUT_STRING. -/

/-- The last byte of a string is packed after the others (R141). -/
theorem pkPutString_concat (v : Str) (b : Byte) (s : State) :
    pkPutString (v ++ [b]) s = (pkPutString v s).andThen (pkPutCode b.toNat) := by
  induction v generalizing s with
  | nil =>
    rw [pkPutString_eq]
    exact pkPutCodes_single _ s
  | cons c v ih => rw [List.cons_append, pkPutString, funext ih, pkPutString, andThen_assoc]

/-- Settles O37, by `pkPutString_concat`, an induction on the string. -/
theorem putStringPacksEachByte : Obligations.PutStringPacksEachByte := by
  unfold Obligations.PutStringPacksEachByte
  exact ⟨fun _ => rfl, fun s v b => pkPutString_concat v b s⟩

/-! PK_FLUSH. -/

/-- The pad codes PK_FLUSH packs (R142). -/
def flushCodes (p : PackRegs) : List Nat :=
  List.replicate (padCount 8 p) 256

theorem pkFlush_eq (s : State) : pkFlush s = pkPutCodes (flushCodes s.pack) s :=
  padToBoundary_eq 8 s

/-- At width 9 with at most 7 pending bits PK_FLUSH packs (8 - CNT) mod 8 pad codes (R144). -/
theorem flushCodes_steady {p : PackRegs} (hw : p.width = 9) (hc : p.cnt.toNat ≤ 7) :
    flushCodes p = List.replicate ((8 - p.cnt.toNat) % 8) 256 := by
  rw [flushCodes, padCount_steady hw hc]

/-- One turn less bounds the loop of PK_FLUSH as well, where it does not need its last. -/
theorem padCount_of_succ_le {fuel : Nat} {p : PackRegs} (h : padCount (fuel + 1) p ≤ fuel) :
    padCount fuel p = padCount (fuel + 1) p := by
  induction fuel generalizing p with
  | zero => exact (Nat.le_zero.1 h).symm
  | succ fuel ih =>
    rw [padCount] at h ⊢
    rw [padCount]
    split
    · next hc =>
      rw [if_pos hc] at h
      rw [ih (Nat.le_of_succ_le_succ h)]
    · rfl

/-- From the packer's usual state the pad codes end at a byte boundary (R142, R144). -/
theorem padded_cnt {p : PackRegs} (hw : p.width = 9) (hc : p.cnt.toNat ≤ 7) :
    (putsRegs (flushCodes p) p).cnt = 0 := by
  rw [flushCodes_steady hw hc]
  apply BitVec.eq_of_toNat_eq
  rcases Nat.eq_zero_or_pos p.cnt.toNat with h0 | hpos
  · rw [h0]
    exact h0
  · obtain ⟨m, hm⟩ : ∃ m, (8 - p.cnt.toNat) % 8 = m + 1 := ⟨7 - p.cnt.toNat, by omega⟩
    have hcount := putsBytes_count 256 (List.replicate m 256) p
    have hsmall := putsRegs_cnt_small 256 (List.replicate m 256) p
    rw [hw, List.length_replicate, show (9 : BitVec 4).toNat = 9 from rfl] at hcount
    rw [hm, List.replicate_succ]
    change _ = 0
    omega

/-- After one PK_PUT_CODE at most seven pad codes are missing (R144). -/
theorem padCount_putRegs (x : Nat) (p : PackRegs) : padCount 7 (putRegs x p) = padCount 8 (putRegs x p) := by
  apply padCount_of_succ_le
  rw [padCount_steady (p := putRegs x p) rfl (putRegs_small x p)]
  omega

/-- A loop of PK_FLUSH that packs a pad code at all ends with no bit pending, whatever the packer held. -/
theorem padded_cnt_of_unaligned {p : PackRegs} (h : p.cnt.toNat % p.width.toNat ≠ 0) :
    (putsRegs (flushCodes p) p).cnt = 0 := by
  rw [flushCodes, padCount, if_pos h, List.replicate_succ, putsRegs, padCount_putRegs]
  exact padded_cnt rfl (putRegs_small 256 p)

/-- Two operations that agree on the registers an emission leaves agree after it. -/
theorem emit_andThen_congr {bs : List Byte} {p : PackRegs} {s : State} {f g : State → Flow}
    (h : ∀ t : State, t.pack = p → f t = g t) : (emit bs p s).andThen f = (emit bs p s).andThen g := by
  have hset : ∀ t : State, f (t.withPack p) = g (t.withPack p) := fun t => h _ (pack_withPack t p)
  simp only [emit, andThen_assoc, andThen_cont, hset]

/-- PK_FLUSH as the loop it is: the bound on its turns shows nowhere (R142). -/
theorem pkFlush_loop (s : State) : pkFlush s =
    if s.cnt.toNat % s.width.toNat ≠ 0 then (pkPutCode 256 s).andThen pkFlush else .cont s := by
  have hrest : (pkPutCode 256 s).andThen (padToBoundary 7) = (pkPutCode 256 s).andThen pkFlush := by
    rw [pkPutCode_eq]
    refine emit_andThen_congr fun t ht => ?_
    rw [pkFlush_eq, flushCodes, padToBoundary_eq, ht, padCount_putRegs]
  rw [← hrest]
  rfl

theorem pkFlush_ready {s : State} (h : s.SinkReady (putsBytes (flushCodes s.pack) s.pack).length) :
    pkFlush s = .cont ((acceptBytes (putsBytes (flushCodes s.pack) s.pack) s).withPack
      (putsRegs (flushCodes s.pack) s.pack)) := by
  rw [pkFlush_eq, pkPutCodes_eq, emit_ready h]

/-- Settles O39: the loop packs nothing where CNT is a multiple of W, and otherwise leaves no bit pending
(`padded_cnt_of_unaligned`). -/
theorem flushEndsAtABoundary : Obligations.FlushEndsAtABoundary := by
  unfold Obligations.FlushEndsAtABoundary
  refine ⟨pkFlush_loop, fun s hc => ?_, fun s haccepts => ?_⟩
  · rw [pkFlush_loop, hc]
    exact if_neg (not_not.2 (Nat.zero_mod _))
  · by_cases h : s.cnt.toNat % s.width.toNat = 0
    · refine ⟨s, by rw [pkFlush_loop, if_neg (not_not.2 h)], h, fun hc hw => BitVec.eq_of_toNat_eq ?_⟩
      have hlt : s.cnt.toNat < s.width.toNat := by
        rcases hw with hw | hw <;> rw [hw] <;> exact Nat.lt_of_le_of_lt hc (by decide)
      rwa [Nat.mod_eq_of_lt hlt] at h
    · have hzero := padded_cnt_of_unaligned (p := s.pack) h
      refine ⟨_, pkFlush_ready (ready_all haccepts _), ?_, fun _ _ => hzero⟩
      rw [withPack_cnt, hzero]
      exact Nat.zero_mod _

/-! The flush table. -/

theorem bitsValue_append (q r : List Bool) : bitsValue (q ++ r) = bitsValue q * 2 ^ r.length + bitsValue r := by
  induction q with
  | nil => rw [List.nil_append, bitsValue, Nat.zero_mul, Nat.zero_add]
  | cons b q ih =>
    rw [List.cons_append, bitsValue, bitsValue, ih, List.length_append, pow_add]
    ring

/-- The pad code's bits, cut where they complete a byte of 7 - m pending bits: a 1 and m zeros, then 8 - m zeros. -/
theorem padCode_bits : ∀ m ≤ 6, codeBits 9 256 = codeBits (m + 1) (2 ^ m) ++ codeBits (8 - m) 0 := by
  decide

/-- One pad code after 7 - m pending bits of value p completes the byte of p, a 1 and m zeros, and leaves zeros
pending (R144). -/
theorem cutBytes_padCode {m : Nat} (hm : m ≤ 6) (p : Nat) (rest : List Bool) :
    cutBytes (codeBits (7 - m) p ++ (codeBits 9 256 ++ rest)) =
      BitVec.ofNat 8 (p % 2 ^ (7 - m) * 2 ^ (m + 1) + 2 ^ m) :: cutBytes (codeBits (8 - m) 0 ++ rest) := by
  have hgroup : (codeBits (7 - m) p ++ codeBits (m + 1) (2 ^ m)).length = 8 := by
    rw [List.length_append, codeBits_length, codeBits_length]
    omega
  have hpow : 2 ^ m < 2 ^ (m + 1) := Nat.pow_lt_pow_succ (by decide)
  rw [padCode_bits m hm, List.append_assoc, ← List.append_assoc, cutBytes_group hgroup, bitsValue_append,
    codeBits_length, bitsValue_codeBits, bitsValue_codeBits, Nat.mod_eq_of_lt hpow]

/-- The flush table (R144) by the number m + 1 of pad codes: after the first byte the pending bits are zeros, so each
further pad code sends the power of two its leading 1 stands at. -/
theorem cutBytes_padCodes {m : Nat} (hm : m ≤ 6) (p : Nat) :
    cutBytes (codeBits (7 - m) p ++ (List.replicate (m + 1) (codeBits 9 256)).flatten) =
      BitVec.ofNat 8 (p % 2 ^ (7 - m) * 2 ^ (m + 1) + 2 ^ m) ::
        ((List.range m).map fun i => BitVec.ofNat 8 (2 ^ (m - 1 - i))) ++ [0x00] := by
  induction m generalizing p with
  | zero =>
    rw [List.replicate_succ, List.flatten_cons, cutBytes_padCode hm]
    rfl
  | succ m ih =>
    have hzeros := ih (by omega) 0
    rw [Nat.zero_mod, Nat.zero_mul, Nat.zero_add] at hzeros
    rw [List.replicate_succ, List.flatten_cons, cutBytes_padCode hm, show 8 - (m + 1) = 7 - m by omega, hzeros,
      List.range_succ_eq_map]
    simp [Nat.sub_sub, Nat.add_comm]

/-- At width 9 PK_FLUSH cuts the padded pending bits into bytes (R142, R145). -/
theorem flushBytes_eq_cutBytes {p : PackRegs} (hw : p.width = 9) (hc : p.cnt.toNat ≤ 7) :
    putsBytes (flushCodes p) p = cutBytes (padBits p.bits) := by
  rw [flushCodes_steady hw hc, (putsBytes_steady hc hw).1, padBits, PackRegs.bits_length, List.flatMap_replicate,
    Nat.mod_eq_of_lt (Nat.lt_succ_of_le hc)]

/-- At width 9 PK_FLUSH sends at most eight bytes (R144). -/
theorem flushBytes_length_le {p : PackRegs} (hw : p.width = 9) (hc : p.cnt.toNat ≤ 7) :
    (putsBytes (flushCodes p) p).length ≤ 8 := by
  rw [flushBytes_eq_cutBytes hw hc, cutBytes_length, padBits_length, PackRegs.bits_length]
  omega

/-- The bytes PK_FLUSH sends at width 9 (R144). -/
theorem flushBytes_eq {p : PackRegs} (hw : p.width = 9) (hpos : 0 < p.cnt.toNat) (hc : p.cnt.toNat ≤ 7) :
    putsBytes (flushCodes p) p =
      BitVec.ofNat 8 (p.acc.toNat % 2 ^ p.cnt.toNat * 2 ^ (8 - p.cnt.toNat) + 2 ^ (7 - p.cnt.toNat)) ::
        ((List.range (7 - p.cnt.toNat)).map fun i => BitVec.ofNat 8 (2 ^ (6 - p.cnt.toNat - i))) ++ [0x00] := by
  obtain ⟨m, hm, hle⟩ : ∃ m, p.cnt.toNat = 7 - m ∧ m ≤ 6 := ⟨7 - p.cnt.toNat, by omega⟩
  have hpads : (8 - (7 - m) % 8) % 8 = m + 1 := by omega
  rw [flushBytes_eq_cutBytes hw hc, padBits, PackRegs.bits_length, PackRegs.bits, hm, hpads, cutBytes_padCodes hle,
    show 8 - (7 - m) = m + 1 by omega, show 7 - (7 - m) = m by omega, show 6 - (7 - m) = m - 1 by omega]

/-- Settles O38: at width 9 the pad codes are `flushCodes_steady`, and their bytes `flushBytes_eq`. -/
theorem flushTable : Obligations.FlushTable := by
  unfold Obligations.FlushTable
  intro s hw hc hready c p bs
  have hbytes : putsBytes (flushCodes s.pack) s.pack = bs := by
    rcases Nat.eq_zero_or_pos s.cnt.toNat with h0 | hpos
    · rw [flushCodes_steady hw hc, show s.pack.cnt.toNat = 0 from h0]
      exact (if_pos h0).symm
    · rw [flushBytes_eq hw hpos hc]
      exact (if_neg hpos.ne').symm
  have hlen : bs.length ≤ 8 := hbytes ▸ flushBytes_length_le hw hc
  refine ⟨by rw [pkFlush_eq, flushCodes_steady hw hc]; rfl, _, pkFlush_ready (hbytes ▸ ready_le hready hlen), ?_⟩
  rw [hbytes, State.withPack, padded_cnt hw hc, (putsBytes_steady (p := s.pack) hc hw).2.2.2, ← hw]
  rfl

/-! How many bytes each command sends. -/

/-- An accepted command with a sink that accepts every byte has its whole effect. -/
theorem commandFinal_of_accepts {i : Instr} {s t : State} (ha : accepted s.st i = true)
    (haccepts : ∀ a ∈ s.sink, a = SinkAnswer.accept) (he : exec i s = .next t) : t = commandFinal i s :=
  Host.Outcome.next.inj (he.symm.trans (exec_ready ha (ready_all haccepts _)))

theorem out_length_of_accepts {i : Instr} {s t : State} (ha : accepted s.st i = true)
    (haccepts : ∀ a ∈ s.sink, a = SinkAnswer.accept) (he : exec i s = .next t) :
    t.out.length = s.out.length + (commandBytes i s).length := by
  rw [commandFinal_of_accepts ha haccepts he, (commandFinal_out i s).1, List.length_append]

/-- Width 8 is met only before the session's first code, with no bit pending (R29, R41). -/
theorem State.EngineInv.width_cases {s : State} (h : s.EngineInv) : s.width = 9 ∨ (s.width = 8 ∧ s.cnt = 0) := by
  rcases Nat.lt_or_ge 3 s.out.length with hlong | hshort
  · exact .inl (h.laterCodes hlong).1
  · obtain ⟨hw, hc, -⟩ := h.firstCode hshort
    rw [hw]
    exact (firstWidth_cases s.cfg).elim (fun h8 => .inr ⟨h8, hc⟩) .inl

theorem bitsWith_length (s : State) (k : Code) : (s.bitsWith k).length = s.cnt.toNat + s.width.toNat := by
  rw [State.bitsWith, State.pendingBits, List.length_append, codeBits_length, codeBits_length]

section
variable {s : State} (h : s.EngineInv)
include h

/-- BYTE sends nothing on a hit, and on a miss the whole bytes of the pending bits and one code (R125). -/
theorem byteBytes_length (b : Byte) : (commandBytes (.byte b) s).length =
    if dictLookup s.dict (s.cand ++ [b]) ≠ none then 0 else if s.width = 9 ∧ s.cnt.toNat = 7 then 2 else 1 := by
  rw [commandBytes]
  cases hl : dictLookup s.dict (s.cand ++ [b]) with
  | some k => rfl
  | none =>
    obtain ⟨k, hp, -⟩ := pending_of_miss h hl
    have hsmall := h.cntSmall
    rw [byteBytes, hp, pendingCodes, (pending_packs_single h hp).1, cutBytes_length, bitsWith_length,
      if_neg (not_not.2 rfl)]
    rcases h.width_cases with hw | ⟨hw, hc⟩
    · rw [hw, show (9 : BitVec 4).toNat = 9 from rfl]
      simp only [true_and]
      split <;> omega
    · rw [hw, hc]
      rfl

/-- END sends nothing with no byte fed, and otherwise the whole bytes of the padded bits (R125). -/
theorem endBytes_length : (commandBytes .endInput s).length =
    if s.pend = none then 0 else if s.width = 8 then 1 else 9 - s.cnt.toNat := by
  rw [commandBytes]
  cases hp : s.pend with
  | none =>
    rw [(endCodes_empty h hp).1]
    rfl
  | some k =>
    have hsmall := h.cntSmall
    rw [endBytes_pending h hp, cutBytes_length, padBits_length, bitsWith_length, if_neg nofun]
    rcases h.width_cases with hw | ⟨hw, hc⟩
    · rw [hw, if_neg (by decide), show (9 : BitVec 4).toNat = 9 from rfl]
      omega
    · rw [hw, hc]
      rfl

end

/-- Settles O24: OUT grows by the command's bytes, and their number is `byteBytes_length` and `endBytes_length`. -/
theorem bytesSentPerCommand : Obligations.BytesSentPerCommand := by
  unfold Obligations.BytesSentPerCommand
  intro s t i hI haccepts he
  refine ⟨fun hst hi => ?_, fun hst b hi => ?_, fun hst hi => ?_⟩ <;> subst hi
  · exact out_length_of_accepts (by rw [hst]; rfl) haccepts he
  · rw [out_length_of_accepts (accepted_byte_iff.2 hst) haccepts he, byteBytes_length (engineInv_of_stream hI hst)]
  · rw [out_length_of_accepts (accepted_endInput_iff.2 hst) haccepts he, endBytes_length (engineInv_of_stream hI hst)]

end Sys2Proof.Machine
end

section
/-! PROOFS. The host commands family (44_host_commands.md): the step of a command word, the sequencing table, the
events that change ST, and START's header. -/

namespace Sys2Proof.Machine

/-! The step. -/

/-- The step of a word that decodes (R160). -/
theorem step_decoded {s : State} {w : CmdWord} {rest : List HostAction} {i : Instr}
    (hh : s.host = .command w :: rest) (hd : decode w = .ok i) : step s = exec i { s with host := rest } := by
  rw [step_action hh, runAction, runWord, hd]

theorem tableWord_toNat (w : CmdWord) : tableWord 16 w.toNat = w := by
  rw [tableWord, Nat.mod_eq_of_lt w.isLt, BitVec.ofNat_toNat, BitVec.setWidth_eq]

/-- Settles O6: the word of a command placed next decodes to that command. -/
theorem stepRunsTheDecodedCommand : Obligations.StepRunsTheDecodedCommand := by
  unfold Obligations.StepRunsTheDecodedCommand
  refine ⟨fun _ _ _ _ => step_decoded, fun s i => ?_⟩
  rw [State.withFetchWord, tableWord_toNat]
  exact step_decoded (issueWord_host _ s) (decode_encode_ok i)

/-! The sequencing table. -/

theorem accepted_start_iff {st : St} : accepted st .start = true ↔ st = .idle := by
  cases st <;> simp [accepted]

/-- Settles O10: the accepted entries by `accepted_cases`, then FAULT, then the entries out of sequence. -/
theorem sequencingTable : Obligations.SequencingTable := by
  unfold Obligations.SequencingTable
  intro s i haccepts
  cases ha : accepted s.st i with
  | true =>
    refine ⟨_, exec_ready ha (ready_all haccepts _), ?_⟩
    rcases accepted_cases ha with ⟨rfl, hst⟩ | ⟨⟨b, rfl⟩, hst⟩ | ⟨rfl, hst⟩ <;> rw [hst]
    · exact ⟨startFinal_st s, startFinal_cause s⟩
    · exact ⟨(commandFinal_byte_st b s).trans hst, (commandFinal_around _ s).1⟩
    · exact ⟨endFinal_st s, endFinal_cause s⟩
  | false =>
    by_cases hf : s.st = .fault
    · refine ⟨s, exec_inFault i hf, ?_⟩
      rw [hf]
      cases i <;> rfl
    · refine ⟨_, exec_outOfSequence hf ha, ?_⟩
      -- Every entry that is neither accepted nor in FAULT asks the same: ST = FAULT, CAUSE = 2.
      cases hst : s.st <;> cases i <;> simp_all [accepted]

/-- An accepted command moves ST by START in IDLE and by END in STREAM only. -/
theorem commandFinal_changes_st {i : Instr} {s : State} (ha : accepted s.st i = true)
    (hne : (commandFinal i s).st ≠ s.st) :
    (i = .start ∧ s.st = .idle ∧ (commandFinal i s).st = .stream) ∨
    (i = .endInput ∧ s.st = .stream ∧ (commandFinal i s).st = .done) := by
  rcases accepted_cases ha with ⟨rfl, hst⟩ | ⟨⟨b, rfl⟩, -⟩ | ⟨rfl, hst⟩
  · exact .inl ⟨rfl, hst, startFinal_st s⟩
  · exact absurd (commandFinal_byte_st b s) hne
  · exact .inr ⟨rfl, hst, endFinal_st s⟩

/-- Settles O11: of all a host action can do (`runAction_cases`), these move ST. -/
theorem onlyTheseEventsChangeSt : Obligations.OnlyTheseEventsChangeSt := by
  unfold Obligations.OnlyTheseEventsChangeSt
  intro s t he hne
  rcases hh : s.host with _ | ⟨a, rest⟩
  · rw [step_idle hh] at he
    exact absurd (congrArg State.st (Host.Outcome.next.inj he)).symm hne
  · rw [step_action hh] at he
    rcases runAction_cases a { s with host := rest } with
      ⟨h, -⟩ | ⟨h, rfl⟩ | ⟨h, -⟩ | ⟨w, c, rfl, hf, hc, h⟩ | ⟨w, i, rfl, hd, ha, -, h⟩ |
        ⟨w, i, n, rfl, -, ha, -, -, h⟩ <;>
      obtain rfl := Host.Outcome.next.inj (h.symm.trans he)
    · exact absurd rfl hne
    · exact .inl ⟨⟨rest, hh⟩, resetEngine_st _⟩
    · exact absurd (readStatus_st _) hne
    · refine .inr (.inr (.inr ⟨w, rest, rfl, hf, rfl, ?_⟩))
      rcases hc with rfl | rfl <;> exact Cause.noConfusion
    · obtain rfl := (decode_eq_ok_iff w i).1 hd
      rcases commandFinal_changes_st ha hne with ⟨rfl, hst, hst'⟩ | ⟨rfl, hst, hst'⟩
      · exact .inr (.inl ⟨rest, rfl, hst, hst'⟩)
      · exact .inr (.inr (.inl ⟨rest, rfl, hst, hst'⟩))
    · refine .inr (.inr (.inr ⟨w, rest, rfl, accepted_not_fault ha, refuseByte_st _, ?_⟩))
      rw [refuseByte_cause]
      exact Cause.noConfusion

/-! START. -/

/-- An accepted command of whose bytes the sink refuses one. -/
theorem exec_refused {i : Instr} {s : State} {n : Nat} (ha : accepted s.st i = true)
    (hn : n < (commandBytes i s).length) (h : s.SinkRefusesAfter n) :
    exec i s = .next (refuseByte (acceptBytes ((commandBytes i s).take n) s)) := by
  rw [exec_accepted ha, refusalWithin_some.2 ⟨hn, h⟩]

/-- Settles O18: START offers the sink the header's three bytes. -/
theorem startWritesTheHeader : Obligations.StartWritesTheHeader := by
  unfold Obligations.StartWritesTheHeader
  refine ⟨fun s hst hready => exec_ready (accepted_start_iff.2 hst) hready, fun s n hst hn hrefuses => ?_⟩
  exact ⟨_, exec_refused (accepted_start_iff.2 hst) hn hrefuses, refuseByte_st _, refuseByte_cause _,
    refuseByte_out _⟩

end Sys2Proof.Machine
end

section
/-! PROOFS. The exceptions family (60_exceptions.md): the precise faults ILLEGAL_CMD and SEQUENCE, FAULT and the way
out of it, and SINK_ERROR at any byte of a command. -/

namespace Sys2Proof.Machine

/-! The precise faults. -/

/-- Settles O7. -/
theorem illegalWordFaultsPrecisely : Obligations.IllegalWordFaultsPrecisely := by
  unfold Obligations.IllegalWordFaultsPrecisely
  intro s w rest e hh hf hd
  rw [step_action hh, runAction, runWord, hd]
  exact runIllegal_eq { s with host := rest } hf

/-- An entry of the table, other than those of FAULT, that does not accept the command (R162, R186). -/
theorem exec_notAccepted_at {i : Instr} {s : State} {st : St} (hst : s.st = st) (hf : st ≠ .fault)
    (ha : accepted st i = false) : exec i s = .next { s with st := .fault, cause := .sequence } :=
  exec_outOfSequence (hst ▸ hf) (hst ▸ ha)

/-- Settles O8, one entry of the table at a time. -/
theorem outOfSequenceFaultsPrecisely : Obligations.OutOfSequenceFaultsPrecisely := by
  unfold Obligations.OutOfSequenceFaultsPrecisely
  refine ⟨?_, ?_, ?_⟩
  · rintro s (hst | hst) <;> exact exec_notAccepted_at hst nofun rfl
  · rintro s b (hst | hst) <;> exact exec_notAccepted_at hst nofun rfl
  · rintro s (hst | hst) <;> exact exec_notAccepted_at hst nofun rfl

/-! FAULT. -/

/-- A command word in FAULT is ignored, legal or not (R189). -/
theorem runWord_inFault (w : CmdWord) {s : State} (hf : s.st = .fault) : runWord w s = .next s := by
  unfold runWord
  cases decode w with
  | ok i => exact exec_inFault i hf
  | error e => exact if_pos hf

theorem step_word_inFault {s : State} {w : CmdWord} {rest : List HostAction} (hf : s.st = .fault)
    (hh : s.host = .command w :: rest) : step s = .next { s with host := rest } := by
  rw [step_action hh, runAction]
  exact runWord_inFault w (s := { s with host := rest }) hf

/-- Settles O9: in FAULT a command word does nothing, a STATUS read only records, and what is left is the reset. -/
theorem faultIsLeftByResetOnly : Obligations.FaultIsLeftByResetOnly := by
  unfold Obligations.FaultIsLeftByResetOnly
  refine ⟨fun s w rest => step_word_inFault, fun s i => exec_inFault i, fun s t hf he => ?_⟩
  rcases hh : s.host with _ | ⟨a, rest⟩
  · obtain rfl := Host.Outcome.next.inj ((step_idle hh).symm.trans he)
    exact .inl ⟨hf, rfl⟩
  · cases a with
    | command w =>
      obtain rfl := Host.Outcome.next.inj ((step_word_inFault hf hh).symm.trans he)
      exact .inl ⟨hf, rfl⟩
    | reset =>
      obtain rfl := Host.Outcome.next.inj ((step_action hh).symm.trans he)
      exact .inr ⟨⟨rest, hh⟩, resetEngine_st _, resetEngine_cause _⟩
    | readStatus =>
      obtain rfl := Host.Outcome.next.inj ((step_action hh).symm.trans he)
      exact .inl ⟨hf, rfl⟩

/-! SINK_ERROR. -/

/-- Where the table accepts a command (R162). -/
theorem accepted_iff {st : St} {i : Instr} :
    accepted st i = true ↔ (i = .start ∧ st = .idle) ∨ (i ≠ .start ∧ st = .stream) := by
  cases i with
  | start => simp [accepted_start_iff]
  | byte b => simp [accepted_byte_iff]
  | endInput => simp [accepted_endInput_iff]

/-- What a command offers the sink does not depend on the sink's answers. -/
theorem commandBytes_withSink (i : Instr) (s : State) (l : List SinkAnswer) :
    commandBytes i { s with sink := l } = commandBytes i s := by
  cases i with
  | start => rfl
  | byte b =>
    simp only [commandBytes]
    cases dictLookup s.dict (s.cand ++ [b]) <;> rfl
  | endInput => rfl

/-- What an accepted command appends to OUT where the sink accepts every byte is what it offers. -/
theorem sent_eq_commandBytes {i : Instr} {s u : State} {bs : Str} (ha : accepted s.st i = true)
    (he : exec i { s with sink := [] } = .next u) (hout : u.out = s.out ++ bs) : bs = commandBytes i s := by
  have hready : State.SinkReady { s with sink := [] } (commandBytes i { s with sink := [] }).length :=
    ready_all (fun _ h => absurd h List.not_mem_nil) _
  rw [exec_ready (s := { s with sink := [] }) ha hready] at he
  obtain rfl := Host.Outcome.next.inj he
  rw [(commandFinal_out i _).1, commandBytes_withSink] at hout
  exact (List.append_cancel_left hout).symm

/-- The refused byte takes one answer of the sink too. -/
@[simp] theorem refuseByte_sink (s : State) : (refuseByte s).sink = s.sink.tail := raiseFault_sink _ _

/-- The exact fields of a STATUS word: ST, CAUSE, and the reserved bits, which are 0 (R32). -/
theorem statusWord_fields (next : BitVec 10) (w9 : Bool) (cnt : BitVec 5) (cause : BitVec 4)
    (pendValid dictFull : Bool) (st : BitVec 2) :
    (statusWord next w9 cnt cause pendValid dictFull st).extractLsb' 0 2 = st ∧
    (statusWord next w9 cnt cause pendValid dictFull st).extractLsb' 4 4 = cause ∧
    (statusWord next w9 cnt cause pendValid dictFull st).extractLsb' 14 2 = 0 ∧
    (statusWord next w9 cnt cause pendValid dictFull st).extractLsb' 26 6 = 0 := by
  have hw9 := w9.toNat_le
  have hpv := pendValid.toNat_le
  have hdf := dictFull.toNat_le
  refine ⟨?_, ?_, ?_, ?_⟩ <;> apply BitVec.eq_of_toNat_eq <;>
    simp only [BitVec.extractLsb'_toNat, Nat.shiftRight_eq_div_pow, statusWord_toNat, BitVec.ofNat_eq_ofNat,
      BitVec.toNat_ofNat] <;> omega

/-- STATUS after a SINK_ERROR shows ST = FAULT and CAUSE = 3 (R184), and its reserved bits as 0. -/
theorem status_of_sinkError {s : State} (hst : s.st = .fault) (hc : s.cause = .sinkError) :
    s.status.extractLsb' 0 2 = 3 ∧ s.status.extractLsb' 4 4 = 3 ∧
      s.status.extractLsb' 14 2 = 0 ∧ s.status.extractLsb' 26 6 = 0 := by
  rw [State.status, if_pos ⟨hst, hc⟩, hst, hc]
  exact statusWord_fields _ _ _ _ _ _ _

/-- Settles O22: `bs` is what the command offers the sink, and `exec_refused` says what a refusal leaves. -/
theorem sinkErrorStopsTheCommand : Obligations.SinkErrorStopsTheCommand := by
  unfold Obligations.SinkErrorStopsTheCommand
  intro s u i bs n hi he hout hn hrefuses
  have ha : accepted s.st i = true := accepted_iff.2 hi
  obtain rfl := sent_eq_commandBytes ha he hout
  refine ⟨_, exec_refused ha hn hrefuses, refuseByte_st _, refuseByte_cause _, refuseByte_out _,
    refuseByte_delivered _, ?_, refuseByte_surroundings _, status_of_sinkError (refuseByte_st _) (refuseByte_cause _)⟩
  rw [refuseByte_sink, acceptBytes, List.length_take_of_le (Nat.le_of_lt hn), List.tail_drop]

end Sys2Proof.Machine
end

section
/-! PROOFS. The reset and hazards family (70_reset_and_hazards.md): every step completes, the reset action from any
state, and the finality of the bytes delivered. -/

namespace Sys2Proof.Machine

/-! Completion. -/

/-- Every host action runs to its end, in every state (R207). -/
theorem runAction_completes (a : HostAction) (s : State) : ∃ t, runAction a s = .next t := by
  rcases runAction_cases a s with
    ⟨h, -⟩ | ⟨h, -⟩ | ⟨h, -⟩ | ⟨_, _, -, -, -, h⟩ | ⟨_, _, -, -, -, -, h⟩ | ⟨_, _, _, -, -, -, -, -, h⟩ <;>
    exact ⟨_, h⟩

/-- Settles O12: a step with no host action is idle, and any other runs one action to its end. -/
theorem everyStepCompletes : Obligations.EveryStepCompletes := by
  unfold Obligations.EveryStepCompletes
  refine ⟨fun s => ?_, fun _ => step_idle⟩
  rcases hh : s.host with _ | ⟨a, rest⟩
  · exact ⟨s, step_idle hh⟩
  · rw [step_action hh]
    exact runAction_completes a _

/-! Reset. -/

/-- The reset action leaves the state after reset, but for what stands outside the engine. -/
theorem resetEngine_eq (s : State) : resetEngine s = { State.resetWith s.cfg with
    host := s.host, sink := s.sink, delivered := s.delivered, reads := s.reads, draws := s.draws } := rfl

/-- Settles O14. -/
theorem resetActionFromAnyState : Obligations.ResetActionFromAnyState := by
  unfold Obligations.ResetActionFromAnyState
  intro s rest hh
  rw [step_action hh, runAction, resetEngine_eq]

/-! Bytes delivered. -/

/-- A state as its own successor: no byte is appended. -/
theorem out_grows_by_nothing (s : State) : ∃ bs, s.out = s.out ++ bs ∧ s.delivered = s.delivered ++ bs :=
  ⟨[], (List.append_nil _).symm, (List.append_nil _).symm⟩

/-- A host action appends the same bytes to OUT and to what the sink has, or is the reset, which empties OUT and
sends nothing. -/
theorem runAction_delivered {a : HostAction} {s t : State} (he : runAction a s = .next t) :
    (∃ bs, t.out = s.out ++ bs ∧ t.delivered = s.delivered ++ bs) ∨
    (a = .reset ∧ t.out = [] ∧ t.delivered = s.delivered) := by
  rcases runAction_cases a s with
    ⟨h, -⟩ | ⟨h, hreset⟩ | ⟨h, -⟩ | ⟨_, _, -, -, -, h⟩ | ⟨_, i, -, -, -, -, h⟩ | ⟨_, i, n, -, -, -, -, -, h⟩ <;>
    obtain rfl := Host.Outcome.next.inj (h.symm.trans he)
  · exact .inl (out_grows_by_nothing s)
  · exact .inr ⟨hreset, resetEngine_out s, resetEngine_delivered s⟩
  · exact .inl (out_grows_by_nothing s)
  · exact .inl (out_grows_by_nothing s)
  · exact .inl ⟨commandBytes i s, commandFinal_out i s⟩
  · exact .inl ⟨(commandBytes i s).take n, refuseByte_out _, refuseByte_delivered _⟩

/-- Settles O42, by `runAction_delivered`; an idle step changes nothing. -/
theorem deliveredBytesAreFinal : Obligations.DeliveredBytesAreFinal := by
  unfold Obligations.DeliveredBytesAreFinal
  intro s t he
  rcases hh : s.host with _ | ⟨a, rest⟩
  · obtain rfl := Host.Outcome.next.inj ((step_idle hh).symm.trans he)
    exact .inl (out_grows_by_nothing s)
  · rw [step_action hh] at he
    rcases runAction_delivered he with hsent | ⟨rfl, hempty⟩
    · exact .inl hsent
    · exact .inr ⟨⟨rest, hh⟩, hempty⟩

end Sys2Proof.Machine
end

section
/-! PROOFS. What the spec derives about the dictionary (R37, R105, R106, R107): the lengths of its strings, and its
two other readings, as a scan for prefixes and as a store of pairs; and the decode vectors. -/

namespace Sys2Proof.Machine

/-! Lengths. -/

/-- R37: a learned string is one byte longer than a byte's own or than a string learned before it. -/
theorem DictInv.learned_length_le {d : Dict} {next : BitVec 10} (h : DictInv d next) {c : Code} {v : Str}
    (hc : dictRead d c = .str v) (hlearned : 257 ≤ c.toNat) : v.length + 255 ≤ c.toNat := by
  induction hn : c.toNat using Nat.strong_induction_on generalizing c v with
  | _ n ih =>
    subst hn
    obtain ⟨hlow, -⟩ | ⟨-, j, p, b, hj, -, hp, rfl⟩ := h.stored_cases hc
    · omega
    · rw [List.length_append, List.length_singleton]
      obtain ⟨-, rfl⟩ | ⟨hj257, -⟩ := h.stored_cases hp
      · rw [List.length_singleton]
        omega
      · have := ih j.toNat hj hp hj257 rfl
        omega

/-- R107: a candidate of two bytes or more is a learned string, so NEXT, past its code, bounds its length. -/
theorem State.EngineInv.cand_length_le {s : State} (h : s.EngineInv) :
    s.cand.length ≤ 1 ∨ s.cand.length + 256 ≤ s.next.toNat := by
  obtain ⟨-, hcand, -⟩ | ⟨k, -, hk⟩ := h.pending
  · rw [hcand]
    exact .inl (Nat.zero_le 1)
  · obtain ⟨hbelow, -⟩ := h.dict.stored hk
    obtain ⟨-, hcand⟩ | ⟨hk257, -⟩ := h.dict.stored_cases hk
    · rw [hcand]
      exact .inl le_rfl
    · have := h.dict.learned_length_le hk hk257
      exact .inr (by omega)

/-- Settles O30, by `DictInv.learned_length_le`, an induction on the code; NEXT is at most 512. -/
theorem stringLengthsAreBounded : Obligations.StringLengthsAreBounded := by
  unfold Obligations.StringLengthsAreBounded
  refine ⟨fun d n c v h => h.learned_length_le, fun s h => ?_⟩
  obtain ⟨-, hcap⟩ := h.dict.cursor
  have hlen := h.cand_length_le
  refine ⟨by omega, fun h256 => BitVec.eq_of_toNat_eq ?_⟩
  rw [show (512 : BitVec 10).toNat = 512 from rfl]
  omega

/-! The scan for prefixes. -/

open Classical in
/-- The scan accepts an entry that is a string beginning with the one looked up (R105). -/
theorem prefixLookup_eq_find (d : Dict) (v : Str) :
    prefixLookup d v = allCodes.find? fun c => decide (∃ w, dictRead d c = .str w ∧ v <+: w) := by
  unfold prefixLookup
  congr 1
  funext c
  rw [Bool.eq_iff_iff, decide_eq_true_iff]
  cases dictRead d c <;> simp

/-- R36 with the string itself counted: all non-empty prefixes of a stored string are stored at its code or before. -/
theorem DictInv.stored_of_prefix_le {d : Dict} {next : BitVec 10} (h : DictInv d next) {c : Code} {u v : Str}
    (hc : dictRead d c = .str v) (hu : u ≠ []) (hpre : u <+: v) :
    ∃ j : Code, j.toNat ≤ c.toNat ∧ dictRead d j = .str u := by
  by_cases heq : u = v
  · exact ⟨c, le_rfl, heq ▸ hc⟩
  · obtain ⟨j, hj, hread⟩ := h.stored_of_prefix hc hu hpre heq
    exact ⟨j, hj.le, hread⟩

/-- Settles O31: no entry before the string's own code begins with the string, and none does when it is not stored,
since the string would then be stored there or earlier (`DictInv.stored_of_prefix_le`). -/
theorem prefixScanAgreesWithExactLookup : Obligations.PrefixScanAgreesWithExactLookup := by
  unfold Obligations.PrefixScanAgreesWithExactLookup
  classical
  intro d n v h hv
  rw [prefixLookup_eq_find]
  cases hl : dictLookup d v with
  | some c =>
    obtain ⟨hread, hfirst⟩ := dictLookup_some hl
    refine find_first (decide_eq_true ⟨v, hread, List.prefix_rfl⟩) fun a ha => decide_eq_false ?_
    rintro ⟨w, hw, hpre⟩
    obtain ⟨j, hj, hjread⟩ := h.stored_of_prefix_le hw hv hpre
    exact hfirst j (hj.trans_lt ha) hjread
  | none =>
    refine List.find?_eq_none.2 fun a _ htest => ?_
    obtain ⟨w, hw, hpre⟩ := of_decide_eq_true htest
    obtain ⟨j, -, hjread⟩ := h.stored_of_prefix_le hw hv hpre
    exact dictLookup_none.1 hl j hjread

/-! The store of pairs. -/

/-- An entry's pair is (k, b) exactly when the entry is D[k] with b appended (R106). -/
theorem DictInv.entryPair_eq_some_iff {d : Dict} {next : BitVec 10} (h : DictInv d next) {c k : Code} {b : Byte} :
    entryPair d c = some (k, b) ↔ ∃ p, dictRead d k = .str p ∧ dictRead d c = .str (p ++ [b]) := by
  constructor
  · intro he
    unfold entryPair at he
    cases hc : dictRead d c with
    | reserved => simp [hc] at he
    | empty => simp [hc] at he
    | str w =>
      simp only [hc, Option.ite_none_left_eq_some, Option.bind_eq_some_iff, Option.map_eq_some_iff, Prod.mk.injEq] at he
      obtain ⟨-, _, hlook, _, hlast, rfl, rfl⟩ := he
      exact ⟨w.dropLast, (dictLookup_some hlook).1, by rw [List.dropLast_append_getLast? _ hlast]⟩
  · rintro ⟨p, hk, hc⟩
    have hlen : 0 < p.length := List.length_pos_iff.2 (h.stored_ne_nil hk)
    have hlong : ¬ (p ++ [b]).length < 2 := by
      rw [List.length_append, List.length_singleton]
      omega
    simp only [entryPair, hc, if_neg hlong, List.dropLast_concat, h.lookup_eq hk, List.getLast?_concat,
      Option.bind_some, Option.map_some]

/-- With the pending code the candidate's, an entry is the grown candidate exactly when its pair is the pending
code and the byte, so the two searches are one. -/
theorem DictInv.lookup_concat_eq_pairLookup {d : Dict} {next : BitVec 10} (h : DictInv d next) {k : Code} {v : Str}
    (hk : dictRead d k = .str v) (b : Byte) : dictLookup d (v ++ [b]) = pairLookup d k b := by
  have htest : ∀ c, entryPair d c = some (k, b) ↔ dictRead d c = .str (v ++ [b]) := fun c => by
    simp only [h.entryPair_eq_some_iff, hk, Entry.str.injEq, exists_eq_left']
  simp only [dictLookup, pairLookup, htest]

/-- Settles O32. -/
theorem pairStoreIsEquivalent : Obligations.PairStoreIsEquivalent := by
  unfold Obligations.PairStoreIsEquivalent
  refine ⟨fun d n c h hc hlt => ?_, fun s k b h hp => ?_, fun s b h hp => ?_⟩
  · obtain ⟨k, p, b, -, -, hk, hread⟩ := h.learned c hc hlt
    exact ⟨k, b, p, h.entryPair_eq_some_iff.2 ⟨p, hk, hread⟩, hk, hread⟩
  · obtain ⟨hnone, -⟩ | ⟨j, hj, hread⟩ := h.pending
    · exact absurd (hnone.symm.trans hp) nofun
    · obtain rfl := Option.some.inj (hj.symm.trans hp)
      exact h.dict.lookup_concat_eq_pairLookup hread b
  · obtain ⟨hnothing, -⟩ := everyMissHasACodePending
    obtain ⟨-, hliteral⟩ := hnothing s h hp
    exact hliteral b

/-! The decode vectors. -/

/-- Settles O2, by running the decoder on the eleven words. -/
theorem decodeVectorsOfTheSpec : Obligations.DecodeVectorsOfTheSpec := by
  unfold Obligations.DecodeVectorsOfTheSpec
  decide

end Sys2Proof.Machine
end
